-- ==== Sys2Proof/Word.lean ====
section
/-! DEFINITION. The 16-bit word of 00_scope.md rule R8 and the register number of 10_state.md rule R21. -/

namespace Sys2Proof

/-- A word (R8): the width of a register, a memory cell, an instruction and an address. Addition on
`BitVec 16` is addition modulo 2^16, `&&&` is bitwise AND and `~~~` the 16-bit complement, as R9 asks. -/
abbrev Word := BitVec 16

/-- One byte of a ROM image (R193). Nothing inside the core is a byte (R59). -/
abbrev Byte := BitVec 8

/-- The number of a general register, R0 to R7 (R21). -/
abbrev Reg := Fin 8

end Sys2Proof
end

