-- ==== Sys2Proof/Syntax.lean ====
section
/-! DEFINITION. The instructions: one constructor per row of spec/opcode_table.json, in the table's order. -/

namespace Sys2Proof

/-- The rows of 30_encoding.md rule R86, with TRAP split by vector as R91 does. Fields are those of R81; bits that no
field covers (R88) are no part of an instruction. -/
inductive Instr where
  /-- BR (R121): condition mask `w[11:9]` (n, z, p from high to low), PCoffset9 `w[8:0]`. -/
  | br (nzp : BitVec 3) (off9 : BitVec 9)
  /-- ADD, register form (R111). -/
  | addReg (dr sr1 sr2 : Reg)
  /-- ADD, immediate form (R112). -/
  | addImm (dr sr1 : Reg) (imm5 : BitVec 5)
  /-- LD (R131). -/
  | ld (dr : Reg) (off9 : BitVec 9)
  /-- ST (R135). -/
  | st (sr : Reg) (off9 : BitVec 9)
  /-- JSRR (R124). -/
  | jsrr (baseR : Reg)
  /-- JSR (R123). -/
  | jsr (off11 : BitVec 11)
  /-- AND, register form (R113). -/
  | andReg (dr sr1 sr2 : Reg)
  /-- AND, immediate form (R114). -/
  | andImm (dr sr1 : Reg) (imm5 : BitVec 5)
  /-- LDR (R133). -/
  | ldr (dr baseR : Reg) (off6 : BitVec 6)
  /-- STR (R136). -/
  | str (sr baseR : Reg) (off6 : BitVec 6)
  /-- RTI (R140): reserved, fails fast. -/
  | rti
  /-- NOT (R115). -/
  | notReg (dr sr : Reg)
  /-- LDI (R132). -/
  | ldi (dr : Reg) (off9 : BitVec 9)
  /-- STI (R137): fails fast. The format RP9 names its fields (R81, R82); its meaning reads none of them. -/
  | sti (sr : Reg) (off9 : BitVec 9)
  /-- JMP (R122); `jmp 7` is RET. -/
  | jmp (baseR : Reg)
  /-- RES (R143): reserved, fails fast. -/
  | res
  /-- LEA (R134). -/
  | lea (dr : Reg) (off9 : BitVec 9)
  /-- TRAP x20, GETC (R145). -/
  | getc
  /-- TRAP x21, OUT (R146). -/
  | outChar
  /-- TRAP x22, PUTS (R147). -/
  | puts
  /-- TRAP x23, IN (R148): fails fast. -/
  | inChar
  /-- TRAP x24, PUTSP (R149): fails fast. -/
  | putsp
  /-- TRAP x25, HALT (R150). -/
  | halt
  /-- TRAP with a vector outside 0x20 to 0x25 (R151). -/
  | trap (vect8 : BitVec 8)
  deriving DecidableEq, Repr

end Sys2Proof
end

