-- ==== Sys2Proof/WellFormed.lean ====
section
/-! DEFINITION. Which terms of `Instr` are instructions of the machine. -/

namespace Sys2Proof

/-- The vector has a row of its own in the table of 43_trap_system.md rule R142. -/
def trapVectorNamed (v : BitVec 8) : Bool := 0x20 ≤ v.toNat && v.toNat ≤ 0x25

/-- Every field is a number of its own width, so every value of it is encodable (R83, R21). The one thing that a term
can get wrong is a `trap` whose vector has its own row (R91: the TRAP row is selected for the other vectors only). -/
def Instr.wf : Instr → Bool
  | .br _ _ => true
  | .addReg _ _ _ => true
  | .addImm _ _ _ => true
  | .ld _ _ => true
  | .st _ _ => true
  | .jsrr _ => true
  | .jsr _ => true
  | .andReg _ _ _ => true
  | .andImm _ _ _ => true
  | .ldr _ _ _ => true
  | .str _ _ _ => true
  | .rti => true
  | .notReg _ _ => true
  | .ldi _ _ => true
  | .sti _ _ => true
  | .jmp _ => true
  | .res => true
  | .lea _ _ => true
  | .getc => true
  | .outChar => true
  | .puts => true
  | .inChar => true
  | .putsp => true
  | .halt => true
  | .trap v => !trapVectorNamed v

end Sys2Proof
end

