-- ==== Sys2Proof/Decode.lean ====
section
/-! DEFINITION. From a word to its instruction and back (30_encoding.md). Decoding is total: every word selects
exactly one row (R86, R87), so no word is rejected. Opcode numbers and field positions are the spec's decisions D1 and
D2 (R81, R84). -/

namespace Sys2Proof

/-! Fields of a word (R81). -/

def opcodeOf (w : Word) : BitVec 4 := w.extractLsb 15 12
/-- DR or SR, the document's r0. -/
def fieldDR (w : Word) : Reg := (w.extractLsb 11 9).toFin
/-- SR1 or BaseR, the document's r1. -/
def fieldSR1 (w : Word) : Reg := (w.extractLsb 8 6).toFin
/-- SR2, the document's r2. -/
def fieldSR2 (w : Word) : Reg := (w.extractLsb 2 0).toFin
/-- F, the immediate flag, bit 5. -/
def fieldF (w : Word) : Bool := w.getLsbD 5
/-- L, the long flag, bit 11. -/
def fieldL (w : Word) : Bool := w.getLsbD 11
def fieldNzp (w : Word) : BitVec 3 := w.extractLsb 11 9
def fieldImm5 (w : Word) : BitVec 5 := w.extractLsb 4 0
def fieldOff6 (w : Word) : BitVec 6 := w.extractLsb 5 0
def fieldOff9 (w : Word) : BitVec 9 := w.extractLsb 8 0
def fieldOff11 (w : Word) : BitVec 11 := w.extractLsb 10 0
def fieldVect8 (w : Word) : BitVec 8 := w.extractLsb 7 0

/-- The dispatch of a TRAP word on its vector (R91, R141). -/
def decodeTrap (v : BitVec 8) : Instr :=
  if v = 0x20 then .getc
  else if v = 0x21 then .outChar
  else if v = 0x22 then .puts
  else if v = 0x23 then .inChar
  else if v = 0x24 then .putsp
  else if v = 0x25 then .halt
  else .trap v

/-- The opcode map (R84, R85, R86): top four bits, then F or L or the trap vector. Bits marked x in R82 are not
examined (R88). -/
def decode (w : Word) : Instr :=
  if opcodeOf w = 0x0 then .br (fieldNzp w) (fieldOff9 w)
  else if opcodeOf w = 0x1 then
    if fieldF w then .addImm (fieldDR w) (fieldSR1 w) (fieldImm5 w) else .addReg (fieldDR w) (fieldSR1 w) (fieldSR2 w)
  else if opcodeOf w = 0x2 then .ld (fieldDR w) (fieldOff9 w)
  else if opcodeOf w = 0x3 then .st (fieldDR w) (fieldOff9 w)
  else if opcodeOf w = 0x4 then
    if fieldL w then .jsr (fieldOff11 w) else .jsrr (fieldSR1 w)
  else if opcodeOf w = 0x5 then
    if fieldF w then .andImm (fieldDR w) (fieldSR1 w) (fieldImm5 w) else .andReg (fieldDR w) (fieldSR1 w) (fieldSR2 w)
  else if opcodeOf w = 0x6 then .ldr (fieldDR w) (fieldSR1 w) (fieldOff6 w)
  else if opcodeOf w = 0x7 then .str (fieldDR w) (fieldSR1 w) (fieldOff6 w)
  else if opcodeOf w = 0x8 then .rti
  else if opcodeOf w = 0x9 then .notReg (fieldDR w) (fieldSR1 w)
  else if opcodeOf w = 0xA then .ldi (fieldDR w) (fieldOff9 w)
  else if opcodeOf w = 0xB then .sti (fieldDR w) (fieldOff9 w)
  else if opcodeOf w = 0xC then .jmp (fieldSR1 w)
  else if opcodeOf w = 0xD then .res
  else if opcodeOf w = 0xE then .lea (fieldDR w) (fieldOff9 w)
  else decodeTrap (fieldVect8 w)

/-- A register number as the three bits of its field. -/
def regBits (r : Reg) : BitVec 3 := BitVec.ofFin r

/-- The word of an instruction, from the pattern strings of R82, with the conventional values in the spare bits
(R88: 00 in ADD and AND, 111111 in NOT, zeros elsewhere). -/
def encode : Instr → Word
  | .br nzp off9 => 0b0000#4 ++ nzp ++ off9
  | .addReg dr sr1 sr2 => 0b0001#4 ++ regBits dr ++ regBits sr1 ++ 0b000#3 ++ regBits sr2
  | .addImm dr sr1 imm5 => 0b0001#4 ++ regBits dr ++ regBits sr1 ++ 0b1#1 ++ imm5
  | .ld dr off9 => 0b0010#4 ++ regBits dr ++ off9
  | .st sr off9 => 0b0011#4 ++ regBits sr ++ off9
  | .jsrr baseR => 0b0100#4 ++ 0b000#3 ++ regBits baseR ++ 0b000000#6
  | .jsr off11 => 0b0100#4 ++ 0b1#1 ++ off11
  | .andReg dr sr1 sr2 => 0b0101#4 ++ regBits dr ++ regBits sr1 ++ 0b000#3 ++ regBits sr2
  | .andImm dr sr1 imm5 => 0b0101#4 ++ regBits dr ++ regBits sr1 ++ 0b1#1 ++ imm5
  | .ldr dr baseR off6 => 0b0110#4 ++ regBits dr ++ regBits baseR ++ off6
  | .str sr baseR off6 => 0b0111#4 ++ regBits sr ++ regBits baseR ++ off6
  | .rti => 0b1000#4 ++ 0b000000000000#12
  | .notReg dr sr => 0b1001#4 ++ regBits dr ++ regBits sr ++ 0b111111#6
  | .ldi dr off9 => 0b1010#4 ++ regBits dr ++ off9
  | .sti sr off9 => 0b1011#4 ++ regBits sr ++ off9
  | .jmp baseR => 0b1100#4 ++ 0b000#3 ++ regBits baseR ++ 0b000000#6
  | .res => 0b1101#4 ++ 0b000000000000#12
  | .lea dr off9 => 0b1110#4 ++ regBits dr ++ off9
  | .getc => 0b1111#4 ++ 0b0000#4 ++ 0x20#8
  | .outChar => 0b1111#4 ++ 0b0000#4 ++ 0x21#8
  | .puts => 0b1111#4 ++ 0b0000#4 ++ 0x22#8
  | .inChar => 0b1111#4 ++ 0b0000#4 ++ 0x23#8
  | .putsp => 0b1111#4 ++ 0b0000#4 ++ 0x24#8
  | .halt => 0b1111#4 ++ 0b0000#4 ++ 0x25#8
  | .trap v => 0b1111#4 ++ 0b0000#4 ++ v

/-- The `match` column of the instruction's row in spec/opcode_table.json (R86, R91). -/
def Instr.rowMatch : Instr → Word
  | .br _ _ => 0x0000
  | .addReg _ _ _ => 0x1000
  | .addImm _ _ _ => 0x1020
  | .ld _ _ => 0x2000
  | .st _ _ => 0x3000
  | .jsrr _ => 0x4000
  | .jsr _ => 0x4800
  | .andReg _ _ _ => 0x5000
  | .andImm _ _ _ => 0x5020
  | .ldr _ _ _ => 0x6000
  | .str _ _ _ => 0x7000
  | .rti => 0x8000
  | .notReg _ _ => 0x9000
  | .ldi _ _ => 0xA000
  | .sti _ _ => 0xB000
  | .jmp _ => 0xC000
  | .res => 0xD000
  | .lea _ _ => 0xE000
  | .getc => 0xF020
  | .outChar => 0xF021
  | .puts => 0xF022
  | .inChar => 0xF023
  | .putsp => 0xF024
  | .halt => 0xF025
  | .trap _ => 0xF000

/-- The `mask` column of the instruction's row: a word selects the row when `w &&& rowMask = rowMatch` (the TRAP row
only for a vector that has no row of its own). -/
def Instr.rowMask : Instr → Word
  | .br _ _ => 0xF000
  | .addReg _ _ _ => 0xF020
  | .addImm _ _ _ => 0xF020
  | .ld _ _ => 0xF000
  | .st _ _ => 0xF000
  | .jsrr _ => 0xF800
  | .jsr _ => 0xF800
  | .andReg _ _ _ => 0xF020
  | .andImm _ _ _ => 0xF020
  | .ldr _ _ _ => 0xF000
  | .str _ _ _ => 0xF000
  | .rti => 0xF000
  | .notReg _ _ => 0xF000
  | .ldi _ _ => 0xF000
  | .sti _ _ => 0xF000
  | .jmp _ => 0xF000
  | .res => 0xF000
  | .lea _ _ => 0xF000
  | .getc => 0xF0FF
  | .outChar => 0xF0FF
  | .puts => 0xF0FF
  | .inChar => 0xF0FF
  | .putsp => 0xF0FF
  | .halt => 0xF0FF
  | .trap _ => 0xF000

/-- The bits of a word that the instruction examines: those not marked x in the pattern strings of R82 (R88). -/
def Instr.examinedBits : Instr → Word
  | .br _ _ => 0b1111111111111111
  | .addReg _ _ _ => 0b1111111111100111
  | .addImm _ _ _ => 0b1111111111111111
  | .ld _ _ => 0b1111111111111111
  | .st _ _ => 0b1111111111111111
  | .jsrr _ => 0b1111100111000000
  | .jsr _ => 0b1111111111111111
  | .andReg _ _ _ => 0b1111111111100111
  | .andImm _ _ _ => 0b1111111111111111
  | .ldr _ _ _ => 0b1111111111111111
  | .str _ _ _ => 0b1111111111111111
  | .rti => 0b1111000000000000
  | .notReg _ _ => 0b1111111111000000
  | .ldi _ _ => 0b1111111111111111
  | .sti _ _ => 0b1111000000000000
  | .jmp _ => 0b1111000111000000
  | .res => 0b1111000000000000
  | .lea _ _ => 0b1111111111111111
  | .getc => 0b1111000011111111
  | .outChar => 0b1111000011111111
  | .puts => 0b1111000011111111
  | .inChar => 0b1111000011111111
  | .putsp => 0b1111000011111111
  | .halt => 0b1111000011111111
  | .trap _ => 0b1111000011111111

/-- The instruction in the word `w` of `nbits` bits, numbered as spec/opcode_table.json numbers them. Every
instruction is one 16-bit word (R80, R92); a number that is no word of that size gives none. -/
def decodeTableWord (nbits w : Nat) : Option Instr :=
  if nbits ≤ 16 ∧ w < 2 ^ nbits then some (decode (BitVec.ofNat 16 w)) else none

end Sys2Proof
end

