-- ==== Sys2Proof/Config.lean ====
section
/-! DEFINITION. The parameters of one machine (00_scope.md rule R7) that live on after reset. `INIT_MEM`, the third
parameter of R7, is the argument of `State.resetWith`, since nothing reads it after reset. -/

namespace Sys2Proof

/-- What the document leaves to each machine. No instruction changes it. A state carries its machine's parameters
(notes/assumptions/4.md), so a statement about every state holds for every value of them. The defaults of R7 stand
in Machine/Params.lean. -/
structure Config where
  /-- KEY_MAX (R7): the largest key code the host delivers. -/
  keyMax : Word
  /-- HALT_NOTICE (R7): the codes the HALT trap emits. -/
  haltNotice : List Word
  deriving DecidableEq, Repr

end Sys2Proof
end

