-- ==== Sys2Proof/Machine/Params.lean ====
section
/-! DEFINITION. The machine's numbers (00_scope.md rules R6, R7): addresses, COND codes, reset values, defaults. -/

namespace Sys2Proof.Machine

/-- KBSR, the keyboard status register (R55). -/
def kbsr : Word := 0xFE00
/-- KBDR, the keyboard data register (R55). -/
def kbdr : Word := 0xFE02
/-- What a read of KBSR finds there when a key was pending (R56). -/
def kbsrReady : Word := 0x8000
/-- COND codes (R26). -/
def condPos : Word := 1
def condZro : Word := 2
def condNeg : Word := 4
/-- PC at reset (R40, R194). -/
def resetPc : Word := 0x3000
/-- What a cell that no list entry names reads as: the default of INIT_MEM outside a loaded image (R7, R193).
DEDUCED, unsafe: notes/assumptions/3.md. -/
def unlistedWord : Word := 0x0000

/-- The default of KEY_MAX (R7). -/
def defaultKeyMax : Word := 0xFF
/-- The default of HALT_NOTICE (R7): the codes of "HALT". -/
def defaultHaltNotice : List Word := [0x48, 0x41, 0x4C, 0x54]
def defaultConfig : Config where
  keyMax := defaultKeyMax
  haltNotice := defaultHaltNotice

end Sys2Proof.Machine
end

