-- ==== Sys2Proof/Machine/State.lean ====
section
/-! DEFINITION. The state of the machine (10_state.md), the reasons it can stop, and reset. -/

namespace Sys2Proof.Machine

/-- The five encodings that fail fast: the identifiers of 60_exceptions.md rule R161. -/
inductive FailFast where
  | opcodeRTI
  | opcodeSTI
  | opcodeRES
  | trapIN
  | trapPUTSP
  deriving DecidableEq, Repr

/-- The identifier a fault carries (R161 to R163). It is the argument of FAULTED in `status` and nothing else is
recorded. -/
inductive FaultId where
  /-- UnimplementedOperation(id), R161. -/
  | unimplementedOperation (what : FailFast)
  /-- UnknownTrapVector(v), R163. -/
  | unknownTrapVector (v : BitVec 8)
  deriving DecidableEq, Repr

/-- The run status (10_state.md rule R34). HALTED and FAULTED are terminal. -/
inductive Status where
  | running
  | halted
  | faulted (why : FaultId)
  deriving DecidableEq, Repr

/-- A trap routine that has begun and not ended, the step of the spec that contains it being unfinished
(43_trap_system.md rule R144). DESIGN CHOICE, safe: notes/assumptions/1.md and 2.md. -/
inductive Routine where
  /-- GETC, held because the key queue was empty (R145). -/
  | getc
  /-- PUTS, whose scan goes on at address `a` (R147). -/
  | puts (a : Word)
  /-- HALT, with the codes `rest` of the notice still to be put out (R150). -/
  | halt (rest : List Word)
  deriving DecidableEq, Repr

/-- Memory (R33, R50): the cells that do not hold `unlistedWord`, by address, addresses rising. `Memory.wf`
(Machine/Ops.lean) is that form. The cell is the 16-bit word, the machine's smallest addressable unit
(notes/assumptions/5.md). -/
abbrev Memory := List (Nat × Word)

/-- The whole state (R20). KBSR and KBDR are the cells 0xFE00 and 0xFE02 of `mem` (R55, R57). -/
structure State where
  /-- R0 to R7 (R21). -/
  regs : Vector Word 8
  /-- PC (R23). Between steps the address of the next instruction; while an instruction executes, one more than its
  own address. -/
  pc : Word
  /-- COND (R26), a register of 16 bits holding 0 (from reset), 1, 2 or 4. -/
  cond : Word
  /-- Memory (R33). -/
  mem : Memory
  /-- The run status (R34). -/
  status : Status
  /-- The host's key queue, head first (R36). -/
  inq : List Word
  /-- The characters put out, oldest first (R38). -/
  out : List Word
  /-- The unfinished trap routine, if any; the model's own field. -/
  routine : Option Routine
  /-- The machine's parameters (R7); no step changes them. -/
  cfg : Config
  deriving DecidableEq, Repr

/-- Why a step request has no successor state. -/
inductive Fault where
  /-- Raised by `step` when status is HALTED, where R34 defines no step (D18). Safe: nothing can be proved to happen
  after the end. -/
  | stepAfterHalt
  /-- Raised by `step` when status is FAULTED, where R34 defines no step (D18). Safe, for the same reason. -/
  | stepAfterFault (why : FaultId)
  deriving DecidableEq, Repr

/-- Why an instruction would have no meaning in the model. -/
inductive Refusal where
  /-- Raised by `exec` for an instruction without a meaning. Safe. Every instruction has one, so nothing raises it. -/
  | notModelled (mnemonic : String)
  deriving DecidableEq, Repr

/-- Reset (R40, R190, R191) of a machine whose parameters are `cfg`, over the memory INIT_MEM the host supplies (R192)
and with the keys typed ahead. -/
def State.resetWith (cfg : Config) (initMem : Memory) (typedAhead : List Word) : State where
  regs := Vector.replicate 8 0
  pc := resetPc
  cond := 0
  mem := initMem
  status := .running
  inq := typedAhead
  out := []
  routine := none
  cfg := cfg

/-- The machine right after reset: default parameters, no image loaded, no key typed ahead. -/
def State.reset : State := State.resetWith defaultConfig [] []

end Sys2Proof.Machine
end

