-- ==== Sys2Proof/Machine/Ops.lean ====
section
/-! DEFINITION. The named operations over registers, memory, the keyboard and the output; fetching; raising a fault and
halting; what the host may do between steps. -/

namespace Sys2Proof.Machine

/-! Updates of one field. -/

def State.setReg (s : State) (r : Reg) (v : Word) : State := { s with regs := s.regs.set r v }
def State.setPc (s : State) (v : Word) : State := { s with pc := v }
def State.setCond (s : State) (v : Word) : State := { s with cond := v }
def State.setMem (s : State) (m : Memory) : State := { s with mem := m }
def State.setStatus (s : State) (st : Status) : State := { s with status := st }
def State.setInq (s : State) (q : List Word) : State := { s with inq := q }
def State.setOut (s : State) (o : List Word) : State := { s with out := o }
def State.setRoutine (s : State) (r : Option Routine) : State := { s with routine := r }

/-- Register Ri (R11, R21). No register is hard-wired. -/
def State.reg (s : State) (r : Reg) : Word := s.regs[r.val]

/-- The register file as the document lays it out (R20): R0 to R7, then PC at index 8 and COND at index 9. -/
def State.registerFile (s : State) : List Word := s.regs.toList ++ [s.pc, s.cond]

/-! Memory cells (R50). -/

/-- The cell at an address. -/
def Memory.read : Memory → Word → Word
  | [], _ => unlistedWord
  | (b, v) :: m, a => if b = a.toNat then v else Memory.read m a

/-- Put an entry before the first entry of a greater address. -/
def Memory.insert (a : Nat) (v : Word) : Memory → Memory
  | [] => [(a, v)]
  | (b, u) :: m => if a < b then (a, v) :: (b, u) :: m else (b, u) :: Memory.insert a v m

/-- Store a word at an address, keeping the canonical form. -/
def Memory.write (m : Memory) (a v : Word) : Memory :=
  let rest := m.filter (fun c => c.1 != a.toNat)
  if v = unlistedWord then rest else Memory.insert a.toNat v rest

/-- The canonical form: addresses strictly rising and below 65536, and no entry holding what an unlisted cell reads
as. -/
abbrev Memory.wf (m : Memory) : Prop :=
  m.Pairwise (fun x y => x.1 < y.1) ∧ ∀ c ∈ m, c.1 < 65536 ∧ c.2 ≠ unlistedWord

/-- `mem[a]` of R11: the raw cell, no side effect. -/
def State.cell (s : State) (a : Word) : Word := Memory.read s.mem a

/-- `mem[a] <- v`. -/
def State.setCell (s : State) (a v : Word) : State := s.setMem (Memory.write s.mem a v)

/-! The host's capabilities (R37 to R39). -/

/-- `KeyPending()`. -/
def keyPending (s : State) : Bool := !s.inq.isEmpty

/-- `ReadKey()`: the head key and the state without it, or none where it would block. -/
def readKey (s : State) : Option (Word × State) :=
  match s.inq with
  | [] => none
  | k :: rest => some (k, s.setInq rest)

/-- `PutChar(c)`: all 16 bits are the code (R38). -/
def putChar (c : Word) (s : State) : State := s.setOut (s.out ++ [c])

/-- `Flush()`: no effect on any state (R39). -/
def flush (s : State) : State := s

/-! The two operations of memory (R52, R53). -/

/-- The refresh of both device registers that a read of 0xFE00 does first (R52, R56). -/
def pollKeyboard (s : State) : State :=
  match readKey s with
  | some (k, s1) => (s1.setCell kbsr kbsrReady).setCell kbdr k
  | none => s.setCell kbsr 0

/-- `MemRead(a, 1)` (R52). -/
def memRead (a : Word) (s : State) : Word × State :=
  let s1 := if a = kbsr then pollKeyboard s else s
  (s1.cell a, s1)

/-- `MemWrite(a, 1, v)` (R53): a plain store at every address. -/
def memWrite (a v : Word) (s : State) : State := s.setCell a v

/-! The fetch phase (R31). -/

/-- Phases 1 and 2 of the step: read the word at PC through `memRead`, then increment PC modulo 2^16. -/
def fetch (s : State) : Word × State :=
  let (w, s1) := memRead s.pc s
  (w, s1.setPc (s1.pc + 1))

/-! The end of a run. -/

/-- Raising a fault (R161, R163, R164): the step ends, PC keeps the incremented value, `status` is FAULTED with the
identifier and nothing else changes. There is no handler, and no return from a fault or a trap exists (R168, R169). -/
def raiseFault (why : FaultId) (s : State) : Host.Outcome State Fault Refusal := .next (s.setStatus (.faulted why))

/-- `halt()` (R165): the normal end. -/
def haltRun (s : State) : State := s.setStatus .halted

/-! What the host may do (R203). -/

/-- The host appends a key code to the queue (R36). It may do so between any two steps, and at each moment inside a
step this is the same as doing it before or after (DEDUCED, safe: notes/assumptions/24.md). -/
def hostKey (k : Word) (s : State) : State := s.setInq (s.inq ++ [k])

/-- Make `w` the word that the next step fetches and runs. A step at 0xFE00 runs the refreshed status word whatever is
stored there (R56), so there PC moves to the entry point. -/
def placeWord (w : Word) (s : State) : State :=
  let a := if s.pc = kbsr then resetPc else s.pc
  (((s.setPc a).setCell a w).setStatus .running).setRoutine none

end Sys2Proof.Machine
end

