-- ==== Sys2Proof/Machine/Flags.lean ====
section
/-! DEFINITION. The condition register: how it is set (10_state.md rules R27, R28) and tested (41_control.md rule
R121). -/

namespace Sys2Proof.Machine

/-- The COND value of a word (R28). -/
def condOf (v : Word) : Word :=
  if v = 0 then condZro
  else if v.getLsbD 15 then condNeg
  else condPos

/-- `setcc(v)` (R28). -/
def setCC (v : Word) (s : State) : State := s.setCond (condOf v)

/-- The end of every flag-updating instruction: `x[DR] <- v; setcc(v)` (R27). -/
def writeBack (dr : Reg) (v : Word) (s : State) : State := setCC v (s.setReg dr v)

/-- BR's test `(nzp & cond) != 0` (R121), nzp being the number w[11:9]. -/
def branchTaken (nzp : BitVec 3) (s : State) : Bool := (nzp.zeroExtend 16 &&& s.cond) != 0

end Sys2Proof.Machine
end

