-- ==== Sys2Proof/Machine/Operands.lean ====
section
/-! DEFINITION. Operand forms: sign extension and the ways of forming an address (00_scope.md rule R10, 30_encoding.md
rule R83, 42_load_store.md rule R130). In each, `s.pc` is the already incremented PC (R23). -/

namespace Sys2Proof.Machine

/-- `sext_N(f)` (R10). -/
def sext {n : Nat} (f : BitVec n) : Word := f.signExtend 16

/-- PC-relative with PCoffset9 (R83, R130): BR, LD, LDI, LEA, ST. -/
def pcRel9 (s : State) (off9 : BitVec 9) : Word := s.pc + sext off9

/-- PC-relative with PCoffset11 (R83): JSR. -/
def pcRel11 (s : State) (off11 : BitVec 11) : Word := s.pc + sext off11

/-- Base plus offset6 (R130): LDR, STR. -/
def baseOff6 (s : State) (baseR : Reg) (off6 : BitVec 6) : Word := s.reg baseR + sext off6

/-- The immediate operand of ADD and AND (R83). -/
def immOperand (imm5 : BitVec 5) : Word := sext imm5

end Sys2Proof.Machine
end

