-- ==== Sys2Proof/Machine/Alu.lean ====
section
/-! DEFINITION. ADD, AND and NOT (40_alu.md). -/

namespace Sys2Proof.Machine

/-- ADD, register form (R111). -/
def execAddReg (dr sr1 sr2 : Reg) (s : State) : Host.Outcome State Fault Refusal :=
  .next (writeBack dr (s.reg sr1 + s.reg sr2) s)

/-- ADD, immediate form (R112). -/
def execAddImm (dr sr1 : Reg) (imm5 : BitVec 5) (s : State) : Host.Outcome State Fault Refusal :=
  .next (writeBack dr (s.reg sr1 + immOperand imm5) s)

/-- AND, register form (R113). -/
def execAndReg (dr sr1 sr2 : Reg) (s : State) : Host.Outcome State Fault Refusal :=
  .next (writeBack dr (s.reg sr1 &&& s.reg sr2) s)

/-- AND, immediate form (R114). -/
def execAndImm (dr sr1 : Reg) (imm5 : BitVec 5) (s : State) : Host.Outcome State Fault Refusal :=
  .next (writeBack dr (s.reg sr1 &&& immOperand imm5) s)

/-- NOT (R115). -/
def execNot (dr sr : Reg) (s : State) : Host.Outcome State Fault Refusal :=
  .next (writeBack dr (~~~ s.reg sr) s)

end Sys2Proof.Machine
end

