-- ==== Sys2Proof/Machine/Control.lean ====
section
/-! DEFINITION. BR, JMP, JSR and JSRR (41_control.md). -/

namespace Sys2Proof.Machine

/-- BR (R121). -/
def execBr (nzp : BitVec 3) (off9 : BitVec 9) (s : State) : Host.Outcome State Fault Refusal :=
  .next (if branchTaken nzp s then s.setPc (pcRel9 s off9) else s)

/-- JMP, and RET with BaseR = 7 (R122). -/
def execJmp (baseR : Reg) (s : State) : Host.Outcome State Fault Refusal :=
  .next (s.setPc (s.reg baseR))

/-- JSR (R123). -/
def execJsr (off11 : BitVec 11) (s : State) : Host.Outcome State Fault Refusal :=
  .next ((s.setReg 7 s.pc).setPc (pcRel11 s off11))

/-- JSRR (R124): R7 is written first, then BaseR is read, so `JSRR R7` goes on at the next instruction (D5). -/
def execJsrr (baseR : Reg) (s : State) : Host.Outcome State Fault Refusal :=
  let s1 := s.setReg 7 s.pc
  .next (s1.setPc (s1.reg baseR))

end Sys2Proof.Machine
end

