-- ==== Sys2Proof/Machine/LoadStore.lean ====
section
/-! DEFINITION. LD, LDI, LDR, LEA, ST, STR and STI (42_load_store.md). -/

namespace Sys2Proof.Machine

/-- `v <- MemRead(a, 1); x[DR] <- v; setcc(v)`: the end of each load. -/
def loadFrom (dr : Reg) (a : Word) (s : State) : State :=
  let (v, s1) := memRead a s
  writeBack dr v s1

/-- LD (R131). -/
def execLd (dr : Reg) (off9 : BitVec 9) (s : State) : Host.Outcome State Fault Refusal :=
  .next (loadFrom dr (pcRel9 s off9) s)

/-- LDI (R132): the pointer is read first, then the data; either read may poll the keyboard. -/
def execLdi (dr : Reg) (off9 : BitVec 9) (s : State) : Host.Outcome State Fault Refusal :=
  let (p, s1) := memRead (pcRel9 s off9) s
  .next (loadFrom dr p s1)

/-- LDR (R133). -/
def execLdr (dr baseR : Reg) (off6 : BitVec 6) (s : State) : Host.Outcome State Fault Refusal :=
  .next (loadFrom dr (baseOff6 s baseR off6) s)

/-- LEA (R134): the address itself; no memory access. -/
def execLea (dr : Reg) (off9 : BitVec 9) (s : State) : Host.Outcome State Fault Refusal :=
  .next (writeBack dr (pcRel9 s off9) s)

/-- ST (R135). -/
def execSt (sr : Reg) (off9 : BitVec 9) (s : State) : Host.Outcome State Fault Refusal :=
  .next (memWrite (pcRel9 s off9) (s.reg sr) s)

/-- STR (R136). -/
def execStr (sr baseR : Reg) (off6 : BitVec 6) (s : State) : Host.Outcome State Fault Refusal :=
  .next (memWrite (baseOff6 s baseR off6) (s.reg sr) s)

/-- STI (R137): fails fast before any field is read. -/
def execSti (_sr : Reg) (_off9 : BitVec 9) (s : State) : Host.Outcome State Fault Refusal :=
  raiseFault (.unimplementedOperation .opcodeSTI) s

end Sys2Proof.Machine
end

