-- ==== Sys2Proof/Machine/Trap.lean ====
section
/-! DEFINITION. RTI, RES, TRAP and the trap routines (43_trap_system.md). A routine is an operation of the core inside
the step of its TRAP word (R141): it writes no R7, reads no vector and leaves PC and COND alone. The host observes `out`
and `inq` as the routine changes them (R144), so one model step does one pass of the PUTS loop, or puts out one code of the
HALT notice, and leaves the rest to the next (notes/assumptions/2.md). -/

namespace Sys2Proof.Machine

/-- RTI (R140). -/
def execRti (s : State) : Host.Outcome State Fault Refusal :=
  raiseFault (.unimplementedOperation .opcodeRTI) s

/-- RES (R143). -/
def execRes (s : State) : Host.Outcome State Fault Refusal :=
  raiseFault (.unimplementedOperation .opcodeRES) s

/-- The body of GETC (R145): take a key into R0, or be held while the queue is empty. -/
def getcRoutine (s : State) : State :=
  match readKey s with
  | some (k, s1) => (s1.setReg 0 k).setRoutine none
  | none => s.setRoutine (some .getc)

/-- GETC (R145). -/
def execGetc (s : State) : Host.Outcome State Fault Refusal :=
  .next (getcRoutine s)

/-- OUT (R146). -/
def execOut (s : State) : Host.Outcome State Fault Refusal :=
  .next (putChar (s.reg 0) s)

/-- One pass of the loop of PUTS (R147) at address `a`: one read, and the end of the routine or one character. -/
def putsPass (a : Word) (s : State) : State :=
  let (c, s1) := memRead a s
  if c = 0 then s1.setRoutine none else (putChar c s1).setRoutine (some (.puts (a + 1)))

/-- PUTS (R147): the first pass; the others follow by `resumeRoutine`. -/
def execPuts (s : State) : Host.Outcome State Fault Refusal :=
  .next (putsPass (s.reg 0) s)

/-- IN (R148). -/
def execIn (s : State) : Host.Outcome State Fault Refusal :=
  raiseFault (.unimplementedOperation .trapIN) s

/-- PUTSP (R149). -/
def execPutsp (s : State) : Host.Outcome State Fault Refusal :=
  raiseFault (.unimplementedOperation .trapPUTSP) s

/-- The body of HALT (R150) with the codes still to be put out: one of them, or, after the last, `Flush()` and
`halt()`. -/
def haltRoutine : List Word → State → State
  | [], s => haltRun (flush (s.setRoutine none))
  | c :: rest, s => (putChar c s).setRoutine (some (.halt rest))

/-- HALT (R150): the first code of the notice; the rest follows by `resumeRoutine`. -/
def execHalt (s : State) : Host.Outcome State Fault Refusal :=
  .next (haltRoutine s.cfg.haltNotice s)

/-- TRAP with a vector outside 0x20 to 0x25 (R151). -/
def execTrap (vect8 : BitVec 8) (s : State) : Host.Outcome State Fault Refusal :=
  raiseFault (.unknownTrapVector vect8) s

/-- Going on with an unfinished routine: no word is fetched while one runs (R144). -/
def resumeRoutine : Routine → State → State
  | .getc, s => getcRoutine s
  | .puts a, s => putsPass a s
  | .halt rest, s => haltRoutine rest s

end Sys2Proof.Machine
end

