-- ==== Sys2Proof/Machine/Step.lean ====
section
/-! DEFINITION. One step (10_state.md rule R31). -/

namespace Sys2Proof.Machine

/-- A step is defined only while status is RUNNING (R34). It fetches, increments PC, decodes and executes (R31); while a
trap routine is unfinished it goes on with the routine instead (notes/assumptions/1.md, 2.md). -/
def step (s : State) : Host.Outcome State Fault Refusal :=
  match s.status with
  | .halted => .fault .stepAfterHalt
  | .faulted why => .fault (.stepAfterFault why)
  | .running =>
    match s.routine with
    | some r => .next (resumeRoutine r s)
    | none => exec (decode (fetch s).1) (fetch s).2

/-- `s` with the word `w` where `step` fetches its next instruction, so that `step` runs it. -/
def State.withFetchWord (s : State) (_nbits w : Nat) : State := placeWord (BitVec.ofNat 16 w) s

end Sys2Proof.Machine
end

