-- ==== Sys2Proof/Machine/Boot.lean ====
section
/-! DEFINITION. The memory that the document's loader builds from a ROM image (70_reset_and_hazards.md rule R193). The
loader is outside the core; this is only how an INIT_MEM arises. -/

namespace Sys2Proof.Machine

/-- The image's big-endian words; none for an odd number of bytes (D14). -/
def imageWords : List Byte → Option (List Word)
  | [] => some []
  | [_] => none
  | hi :: lo :: rest => (imageWords rest).map (fun ws => (hi ++ lo) :: ws)

/-- Write words at consecutive addresses. -/
def placeWords : Word → List Word → Memory → Memory
  | _, [], m => m
  | a, w :: ws, m => placeWords (a + 1) ws (Memory.write m a w)

/-- INIT_MEM of an image: the first word is the origin, the others stand from there on, the rest is zero. Refused: an
image under two bytes (R193), of odd length, or running past 0xFFFF (D14). -/
def imageMemory (image : List Byte) : Option Memory :=
  match imageWords image with
  | some (origin :: ws) => if origin.toNat + ws.length ≤ 65536 then some (placeWords origin ws []) else none
  | _ => none

/-- The machine after reset with an image loaded (R191, R193, R194). PC is 0x3000 whatever the origin. -/
def bootImage (cfg : Config) (image : List Byte) (typedAhead : List Word) : Option State :=
  (imageMemory image).map (fun m => State.resetWith cfg m typedAhead)

end Sys2Proof.Machine
end

