-- ==== Sys2Proof/Safety.lean ====
section
/-! DEFINITION. The terms that claims about the machine use: the invariant, what stays the same, what a read does, which
instruction writes what, runs, and the loop of PUTS as the spec writes it. Numbers are written out, not taken from
Machine/Params.lean, so that a claim does not follow a wrong number of the model. -/

namespace Sys2Proof.Machine

/-- What holds of every state a run can reach: memory is in canonical form (R50), COND is the reset value or one of the
three codes (R26, R29), every queued key is a key code (R7, R36), a routine is unfinished only in a running machine, an
unfinished HALT has put out the part of the notice that it no longer holds, and a halted machine's output ends with the
notice (R150, R165). -/
abbrev State.Inv (s : State) : Prop :=
  Memory.wf s.mem ∧ (s.cond = 0 ∨ s.cond = 1 ∨ s.cond = 2 ∨ s.cond = 4) ∧ (∀ k ∈ s.inq, k ≤ s.cfg.keyMax) ∧
    (s.routine = none ∨ s.status = .running) ∧
    (∀ rest, s.routine = some (.halt rest) → ∃ done, s.cfg.haltNotice = done ++ rest ∧ done <:+ s.out) ∧
    (s.status = .halted → s.cfg.haltNotice <:+ s.out)

/-- Every cell of memory reads as before. -/
def SameMemory (s t : State) : Prop := ∀ a, t.cell a = s.cell a

/-- Every cell but `a` reads as before, and `a` reads as `v`. -/
def StoredOnly (a v : Word) (s t : State) : Prop := ∀ b, t.cell b = if b = a then v else s.cell b

/-- Every general register but those named reads as before. -/
def SameRegsBut (ds : List Reg) (s t : State) : Prop := ∀ r, r ∉ ds → t.reg r = s.reg r

/-- Run status, output, unfinished routine and parameters are as before. -/
def SameRun (s t : State) : Prop :=
  t.status = s.status ∧ t.out = s.out ∧ t.routine = s.routine ∧ t.cfg = s.cfg

/-- The COND value `c` is the one that R28 gives the word `v`. -/
def CondFor (v c : Word) : Prop :=
  (v = 0 → c = 2) ∧ (v ≠ 0 → v.getLsbD 15 = true → c = 4) ∧ (v ≠ 0 → v.getLsbD 15 = false → c = 1)

/-- What one `MemRead(a, 1)` begun in `s` does (R52, R56): it returns `v`, and cells and key queue are then those of
`t`. -/
def ReadEffect (a : Word) (s t : State) (v : Word) : Prop :=
  (a ≠ 0xFE00 → v = s.cell a ∧ SameMemory s t ∧ t.inq = s.inq) ∧
  (a = 0xFE00 → s.inq = [] → v = 0x0000 ∧ StoredOnly 0xFE00 0x0000 s t ∧ t.inq = []) ∧
  (a = 0xFE00 → ∀ k ks, s.inq = k :: ks → v = 0x8000 ∧ t.inq = ks ∧
    ∀ b, t.cell b = if b = 0xFE00 then 0x8000 else if b = 0xFE02 then k else s.cell b)

/-- The register an instruction writes with `setcc` (R22, R27): ADD, AND, NOT, LD, LDI, LDR and LEA have one. -/
def flagDest : Instr → Option Reg
  | .addReg dr _ _ => some dr
  | .addImm dr _ _ => some dr
  | .andReg dr _ _ => some dr
  | .andImm dr _ _ => some dr
  | .notReg dr _ => some dr
  | .ld dr _ => some dr
  | .ldi dr _ => some dr
  | .ldr dr _ _ => some dr
  | .lea dr _ => some dr
  | .br _ _ => none
  | .st _ _ => none
  | .jsrr _ => none
  | .jsr _ => none
  | .str _ _ _ => none
  | .rti => none
  | .sti _ _ => none
  | .jmp _ => none
  | .res => none
  | .getc => none
  | .outChar => none
  | .puts => none
  | .inChar => none
  | .putsp => none
  | .halt => none
  | .trap _ => none

/-- The general registers an instruction may write (R22): DR, R7 for JSR and JSRR, R0 for GETC. -/
def writtenRegs : Instr → List Reg
  | .addReg dr _ _ => [dr]
  | .addImm dr _ _ => [dr]
  | .andReg dr _ _ => [dr]
  | .andImm dr _ _ => [dr]
  | .notReg dr _ => [dr]
  | .ld dr _ => [dr]
  | .ldi dr _ => [dr]
  | .ldr dr _ _ => [dr]
  | .lea dr _ => [dr]
  | .jsrr _ => [7]
  | .jsr _ => [7]
  | .getc => [0]
  | .br _ _ => []
  | .st _ _ => []
  | .str _ _ _ => []
  | .rti => []
  | .sti _ _ => []
  | .jmp _ => []
  | .res => []
  | .outChar => []
  | .puts => []
  | .inChar => []
  | .putsp => []
  | .halt => []
  | .trap _ => []

/-- The address an instruction stores to, by the expression its meaning uses, in the state it executes in (PC already
incremented): ST and STR have one. -/
def storeAddress : Instr → State → Option Word
  | .st _ off9, s => some (pcRel9 s off9)
  | .str _ baseR off6, s => some (baseOff6 s baseR off6)
  | .br _ _, _ => none
  | .addReg _ _ _, _ => none
  | .addImm _ _ _, _ => none
  | .ld _ _, _ => none
  | .jsrr _, _ => none
  | .jsr _, _ => none
  | .andReg _ _ _, _ => none
  | .andImm _ _ _, _ => none
  | .ldr _ _ _, _ => none
  | .rti, _ => none
  | .notReg _ _, _ => none
  | .ldi _ _, _ => none
  | .sti _ _, _ => none
  | .jmp _, _ => none
  | .res, _ => none
  | .lea _ _, _ => none
  | .getc, _ => none
  | .outChar, _ => none
  | .puts, _ => none
  | .inChar, _ => none
  | .putsp, _ => none
  | .halt, _ => none
  | .trap _, _ => none

/-- R0 points at a string in `s`: `n` words that are not zero, then a zero word, none of them the cell 0xFE00. -/
def StringAt (s : State) (n : Nat) : Prop :=
  n < 65536 ∧ (∀ k ≤ n, s.reg 0 + BitVec.ofNat 16 k ≠ 0xFE00) ∧
    (∀ k < n, s.cell (s.reg 0 + BitVec.ofNat 16 k) ≠ 0) ∧ s.cell (s.reg 0 + BitVec.ofNat 16 n) = 0

/-- The words of that string. -/
def stringWords (s : State) (n : Nat) : List Word :=
  (List.range n).map (fun k => s.cell (s.reg 0 + BitVec.ofNat 16 k))

/-- Executing the instruction in `s` looks neither at 0xFE00 nor at the key queue (R54, R37). For PUTS that is its first
pass; the later ones are steps of their own. -/
def NoKeyboard : Instr → State → Prop
  | .ld _ off9, s => pcRel9 s off9 ≠ 0xFE00
  | .ldi _ off9, s => pcRel9 s off9 ≠ 0xFE00 ∧ s.cell (pcRel9 s off9) ≠ 0xFE00
  | .ldr _ baseR off6, s => baseOff6 s baseR off6 ≠ 0xFE00
  | .puts, s => s.reg 0 ≠ 0xFE00
  | .getc, _ => False
  | .br _ _, _ => True
  | .addReg _ _ _, _ => True
  | .addImm _ _ _, _ => True
  | .st _ _, _ => True
  | .jsrr _, _ => True
  | .jsr _, _ => True
  | .andReg _ _ _, _ => True
  | .andImm _ _ _, _ => True
  | .str _ _ _, _ => True
  | .rti, _ => True
  | .notReg _ _, _ => True
  | .sti _ _, _ => True
  | .jmp _, _ => True
  | .res, _ => True
  | .lea _ _, _ => True
  | .outChar, _ => True
  | .inChar, _ => True
  | .putsp, _ => True
  | .halt, _ => True
  | .trap _, _ => True

/-- One pass of the PUTS loop (R147) at address `a`, from `s` to `t`, in which `c` was read. -/
def PutsPass (a : Word) (s t : State) (c : Word) : Prop :=
  ReadEffect a s t c ∧ SameRegsBut [] s t ∧ t.pc = s.pc ∧ t.cond = s.cond ∧ t.status = s.status ∧ t.cfg = s.cfg ∧
    (c = 0 → t.out = s.out ∧ t.routine = none) ∧ (c ≠ 0 → t.out = s.out ++ [c] ∧ t.routine = some (.puts (a + 1)))

/-- The word is TRAP x25 (R35, R150). -/
def IsHaltWord (w : Word) : Prop := w.extractLsb 15 12 = 0xF#4 ∧ w.extractLsb 7 0 = 0x25#8

/-- The machine is running and between two instructions: the next step fetches (R31, R34). -/
def Ready (s : State) : Prop := s.status = .running ∧ s.routine = none

/-- One move of the whole system: a step of the core, or the host appending a key code (R36, R203). -/
inductive Move : State → State → Prop where
  | step {s t : State} (h : step s = .next t) : Move s t
  | key {s : State} (k : Word) (h : k ≤ s.cfg.keyMax) : Move s (hostKey k s)

/-- What a run of moves reaches. -/
inductive Reaches : State → State → Prop where
  | refl (s : State) : Reaches s s
  | tail {s t u : State} (h : Reaches s t) (m : Move t u) : Reaches s u

/-- The pseudocode of PUTS (R147) as it is written there, with no bound: the loop begun at address `a` in `s` ends
in `t`. No key arrives meanwhile. -/
inductive PutsLoop : Word → State → State → Prop where
  | stop {a : Word} {s : State} (h : (memRead a s).1 = 0) : PutsLoop a s (memRead a s).2
  | emit {a : Word} {s t : State} (h : (memRead a s).1 ≠ 0)
      (rest : PutsLoop (a + 1) (putChar (memRead a s).1 (memRead a s).2) t) : PutsLoop a s t

end Sys2Proof.Machine
end

