-- ==== Sys2Proof/Certificates/Slice0/Obligations.lean ====
section
/-! DEFINITION. The statements for the provers, from the numbered rules of spec/. In a statement about `exec`, the state
`s` is that of the execute phase: `s.pc` is the address of the instruction plus one (R23). A clause about `decode` has the
opcode numbers and field places of the rules it cites, which the spec took from the published LC-3 (decisions D1 and D2,
notes/assumptions/7.md). -/

open Sys2Proof Sys2Proof.Machine

/-! ## Encoding -/

/-- 30_encoding.md R82, R86: no operand is lost on the way through a word, at any value its field admits. -/
def Obligations.DecodeOfEncodeGivesTheInstruction : Prop :=
  ∀ i : Instr, i.wf = true → decode (encode i) = i

/-- 30_encoding.md R82, R88: the instruction read from a word accounts for every bit of it that R82 does not mark x. -/
def Obligations.EncodeOfDecodeKeepsExaminedBits : Prop :=
  ∀ w : Word, (decode w).wf = true ∧
    encode (decode w) &&& (decode w).examinedBits = w &&& (decode w).examinedBits

/-- 30_encoding.md R86, R91: every word selects exactly one row of the opcode table, by match and mask, the TRAP row
only for a vector that has no row of its own; and that row is the one the decoder gives. -/
def Obligations.EveryWordSelectsExactlyOneRow : Prop :=
  ∀ w : Word, w &&& (decode w).rowMask = (decode w).rowMatch ∧
    ∀ i : Instr, i.wf = true → w &&& i.rowMask = i.rowMatch →
      (i.rowMatch = 0xF000 → trapVectorNamed (w.extractLsb 7 0) = false) →
      (decode w).rowMatch = i.rowMatch ∧ (decode w).rowMask = i.rowMask

/-- 30_encoding.md R88: words that differ only in bits marked x behave the same (decision D3, notes/assumptions/10.md),
and `encode` puts the conventional values there. -/
def Obligations.UnexaminedBitsNeverMatter : Prop :=
  (∀ (w u : Word) (s : State), w &&& (decode w).examinedBits = u &&& (decode w).examinedBits →
    exec (decode u) s = exec (decode w) s) ∧
  (∀ dr sr1 sr2, (encode (.addReg dr sr1 sr2)).extractLsb 4 3 = 0b00#2) ∧
  (∀ dr sr1 sr2, (encode (.andReg dr sr1 sr2)).extractLsb 4 3 = 0b00#2) ∧
  (∀ dr sr, (encode (.notReg dr sr)).extractLsb 5 0 = 0b111111#6) ∧
  (∀ b, (encode (.jmp b)).extractLsb 11 9 = 0b000#3 ∧ (encode (.jmp b)).extractLsb 5 0 = 0b000000#6) ∧
  (∀ b, (encode (.jsrr b)).extractLsb 10 9 = 0b00#2 ∧ (encode (.jsrr b)).extractLsb 5 0 = 0b000000#6) ∧
  (∀ v, (encode (.trap v)).extractLsb 11 8 = 0b0000#4)

/-- 95_test_vectors.md: words of every family, each the spec's own, decode to what the spec says they are. -/
def Obligations.WrittenOutWordsDecode : Prop :=
  decode 0x1401 = .addReg 2 0 1 ∧ decode 0x127F = .addImm 1 1 0b11111 ∧ decode 0x52B0 = .andImm 1 2 0b10000 ∧
  decode 0x94FF = .notReg 2 3 ∧ decode 0x0BFC = .br 0b101 0b111111100 ∧ decode 0xC1C0 = .jmp 7 ∧
  decode 0x4C00 = .jsr 0b10000000000 ∧ decode 0x46BF = .jsrr 2 ∧ decode 0x62BF = .ldr 1 2 0b111111 ∧
  decode 0xA406 = .ldi 2 6 ∧ decode 0x3206 = .st 1 6 ∧ decode 0xE700 = .lea 3 0b100000000 ∧ decode 0xFF21 = .outChar ∧
  decode 0xF026 = .trap 0x26

/-! ## The step -/

/-- 10_state.md R31, 20_memory.md R56, 70_reset_and_hazards.md R197 (e): a step runs the instruction decoded from the
word at PC, with PC already incremented. At 0xFE00 the word is the refreshed status word, and the poll takes the head key
(decision D8, notes/assumptions/15.md). -/
def Obligations.StepRunsTheDecodedInstruction : Prop :=
  (∀ (s : State) (i : Instr), Ready s → s.pc ≠ 0xFE00 → decode (s.cell s.pc) = i →
    step s = exec i { s with pc := s.pc + 1 }) ∧
  (∀ s : State, Ready s → s.pc = 0xFE00 → s.inq = [] →
    step s = exec (decode 0x0000) { s.setCell 0xFE00 0x0000 with pc := 0xFE01 }) ∧
  (∀ (s : State) (k : Word) (ks : List Word), Ready s → s.pc = 0xFE00 → s.inq = k :: ks →
    step s = exec (decode 0x8000) { (s.setCell 0xFE00 0x8000).setCell 0xFE02 k with pc := 0xFE01, inq := ks })

/-- 10_state.md R34: a step is defined exactly while status is RUNNING, and then it has a next state; HALTED and FAULTED
are never left (decisions D12, D18). How a request outside RUNNING ends is the model's choice (notes/assumptions/8.md). So
is it that a held GETC and an unfinished PUTS or HALT have next states (notes/assumptions/1.md, 2.md), where the spec enables
no step for the one (D16, U9) and has one step go on or never complete for the others (R144). -/
def Obligations.StepsAreDefinedExactlyWhileRunning : Prop :=
  (∀ s : State, s.status = .running ↔ ∃ t, step s = .next t) ∧
  (∀ s : State, s.status = .halted → step s = .fault .stepAfterHalt) ∧
  (∀ (s : State) (why : FaultId), s.status = .faulted why → step s = .fault (.stepAfterFault why))

/-- 20_memory.md R62, 60_exceptions.md R172: every instruction may be executed in any state, and no memory access stops
it. That a GETC with no key answers a next state, where R145 holds the step, and PUTS and HALT one after each character,
where R144 has one step that may never complete, is the model's choice (notes/assumptions/1.md, 2.md), as is the form of a
fail-fast case as a next state (notes/assumptions/9.md). -/
def Obligations.EveryInstructionGivesANextState : Prop :=
  ∀ (i : Instr) (s : State), ∃ t, exec i s = .next t

/-- 10_state.md R24, 41_control.md R124: the fetch adds one to PC modulo 2^16, and after it only a taken BR, JMP, JSR and JSRR
write PC. JSRR reads BaseR in the state in which R7 is written, so its clause names `t` (the spec's decision D5,
notes/assumptions/12.md). For PUTS and HALT, `exec` is the first of their steps (the model's choice, notes/assumptions/2.md). -/
def Obligations.PcIsWrittenOnlyByControlTransfer : Prop :=
  (∀ s : State, (fetch s).2.pc = s.pc + 1) ∧
  ∀ (i : Instr) (s t : State), exec i s = .next t →
    (∀ nzp off9, i = .br nzp off9 →
      t.pc = if (nzp.zeroExtend 16 &&& s.cond) ≠ 0 then s.pc + off9.signExtend 16 else s.pc) ∧
    (∀ b, i = .jmp b → t.pc = s.reg b) ∧
    (∀ off11, i = .jsr off11 → t.pc = s.pc + off11.signExtend 16) ∧
    (∀ b, i = .jsrr b → t.pc = t.reg b) ∧
    ((∀ nzp off9, i ≠ .br nzp off9) → (∀ b, i ≠ .jmp b) → (∀ off11, i ≠ .jsr off11) → (∀ b, i ≠ .jsrr b) →
      t.pc = s.pc)

/-- 10_state.md R22: an instruction writes no general register but DR of the seven flag-updating instructions, R7 of JSR
and JSRR, and R0 of GETC. -/
def Obligations.GeneralRegistersAreWrittenOnlyAsListed : Prop :=
  ∀ (i : Instr) (s t : State), exec i s = .next t → SameRegsBut (writtenRegs i) s t

/-- 10_state.md R27: COND is set from the value written to DR by ADD, AND, NOT, LD, LDI, LDR and LEA, and by nothing
else; and it is read by BR only: with another COND every other instruction does the same to the rest of the state. -/
def Obligations.CondIsWrittenBySetccAndReadByBrOnly : Prop :=
  (∀ (i : Instr) (s t : State), exec i s = .next t →
    match flagDest i with
    | some dr => CondFor (t.reg dr) t.cond
    | none => t.cond = s.cond) ∧
  (∀ (i : Instr) (s t : State) (c : Word), (∀ nzp off9, i ≠ .br nzp off9) → exec i s = .next t →
    ∃ u, exec i { s with cond := c } = .next u ∧ { u with cond := t.cond } = t)

/-- 10_state.md R26, R29: COND is one of 1, 2, 4 after any flag-updating instruction, and stays so at every later step. -/
def Obligations.CondIsOneHotOnceSet : Prop :=
  (∀ (i : Instr) (s t : State), (flagDest i).isSome = true → exec i s = .next t → t.cond = 1 ∨ t.cond = 2 ∨ t.cond = 4) ∧
  (∀ s t : State, (s.cond = 1 ∨ s.cond = 2 ∨ s.cond = 4) → step s = .next t → t.cond = 1 ∨ t.cond = 2 ∨ t.cond = 4)

/-- 20_memory.md R51 to R53, R56; 90_conflicts.md C7: an instruction changes no cell but the one that ST or STR stores
to, and the two device registers through a read of 0xFE00 by LD, LDI, LDR or PUTS. -/
def Obligations.MemoryIsWrittenOnlyByStoresAndThePoll : Prop :=
  ∀ (i : Instr) (s t : State), exec i s = .next t →
    (∀ a, storeAddress i s = some a → ∀ b, b ≠ a → t.cell b = s.cell b) ∧
    (storeAddress i s = none → ∀ b, b ≠ 0xFE00 → b ≠ 0xFE02 → t.cell b = s.cell b) ∧
    (NoKeyboard i s → storeAddress i s = none → SameMemory s t)

/-- 10_state.md R38, 43_trap_system.md R144, 70_reset_and_hazards.md R197 (h): only OUT, PUTS and HALT emit characters, and
what a run has put out is never taken back; the host sees output and key queue as they change, since a step of the model
puts out at most one character and takes at most one key (notes/assumptions/2.md); the machine's parameters never change
(R41). -/
def Obligations.OutputIsAppendOnly : Prop :=
  (∀ (i : Instr) (s t : State), i ≠ .outChar → i ≠ .puts → i ≠ .halt → exec i s = .next t → t.out = s.out) ∧
  (∀ s t : State, step s = .next t →
    (t.out = s.out ∨ ∃ c, t.out = s.out ++ [c]) ∧ (t.inq = s.inq ∨ ∃ k, s.inq = k :: t.inq)) ∧
  (∀ s t : State, Reaches s t → s.out <+: t.out ∧ t.cfg = s.cfg)

/-! ## Arithmetic and logic -/

/-- 00_scope.md R10: sign extension, for the four widths: OR-ing in the higher bits when bit N-1 is set, which is
f - 2^N modulo 2^16; zero extension, which keeps the number; and the document's example. -/
def Obligations.SignExtensionOrsInTheHighBits : Prop :=
  (∀ f : BitVec 5, sext f = (if f.getLsbD 4 then f.zeroExtend 16 ||| (0xFFFF#16 <<< 5) else f.zeroExtend 16) ∧
    (f.getLsbD 4 = true → ((sext f).toNat : Int) = ((f.toNat : Int) - 32) % 65536) ∧
    (f.zeroExtend 16).toNat = f.toNat) ∧
  (∀ f : BitVec 6, sext f = (if f.getLsbD 5 then f.zeroExtend 16 ||| (0xFFFF#16 <<< 6) else f.zeroExtend 16) ∧
    (f.getLsbD 5 = true → ((sext f).toNat : Int) = ((f.toNat : Int) - 64) % 65536) ∧
    (f.zeroExtend 16).toNat = f.toNat) ∧
  (∀ f : BitVec 9, sext f = (if f.getLsbD 8 then f.zeroExtend 16 ||| (0xFFFF#16 <<< 9) else f.zeroExtend 16) ∧
    (f.getLsbD 8 = true → ((sext f).toNat : Int) = ((f.toNat : Int) - 512) % 65536) ∧
    (f.zeroExtend 16).toNat = f.toNat) ∧
  (∀ f : BitVec 11, sext f = (if f.getLsbD 10 then f.zeroExtend 16 ||| (0xFFFF#16 <<< 11) else f.zeroExtend 16) ∧
    (f.getLsbD 10 = true → ((sext f).toNat : Int) = ((f.toNat : Int) - 2048) % 65536) ∧
    (f.zeroExtend 16).toNat = f.toNat) ∧
  sext (0b10000#5) = 0xFFF0

/-- 10_state.md R28: the flag rule. -/
def Obligations.FlagRule : Prop :=
  ∀ (v : Word) (s : State), ∃ c, setCC v s = { s with cond := c } ∧ CondFor v c

/-- 40_alu.md R111: ADD, register form. -/
def Obligations.AddRegisterForm : Prop :=
  (∀ w : Word, w.extractLsb 15 12 = 0x1#4 → w.getLsbD 5 = false →
    decode w = .addReg (w.extractLsb 11 9).toFin (w.extractLsb 8 6).toFin (w.extractLsb 2 0).toFin) ∧
  ∀ (dr sr1 sr2 : Reg) (s : State), ∃ t, exec (.addReg dr sr1 sr2) s = .next t ∧
    t.reg dr = s.reg sr1 + s.reg sr2 ∧ CondFor (s.reg sr1 + s.reg sr2) t.cond ∧ SameRegsBut [dr] s t ∧ t.pc = s.pc ∧
    SameMemory s t ∧ t.inq = s.inq ∧ SameRun s t

/-- 40_alu.md R112: ADD, immediate form. -/
def Obligations.AddImmediateForm : Prop :=
  (∀ w : Word, w.extractLsb 15 12 = 0x1#4 → w.getLsbD 5 = true →
    decode w = .addImm (w.extractLsb 11 9).toFin (w.extractLsb 8 6).toFin (w.extractLsb 4 0)) ∧
  ∀ (dr sr1 : Reg) (imm5 : BitVec 5) (s : State), ∃ t, exec (.addImm dr sr1 imm5) s = .next t ∧
    t.reg dr = s.reg sr1 + imm5.signExtend 16 ∧ CondFor (s.reg sr1 + imm5.signExtend 16) t.cond ∧
    SameRegsBut [dr] s t ∧ t.pc = s.pc ∧ SameMemory s t ∧ t.inq = s.inq ∧ SameRun s t

/-- 40_alu.md R113: AND, register form. -/
def Obligations.AndRegisterForm : Prop :=
  (∀ w : Word, w.extractLsb 15 12 = 0x5#4 → w.getLsbD 5 = false →
    decode w = .andReg (w.extractLsb 11 9).toFin (w.extractLsb 8 6).toFin (w.extractLsb 2 0).toFin) ∧
  ∀ (dr sr1 sr2 : Reg) (s : State), ∃ t, exec (.andReg dr sr1 sr2) s = .next t ∧
    t.reg dr = s.reg sr1 &&& s.reg sr2 ∧ CondFor (s.reg sr1 &&& s.reg sr2) t.cond ∧ SameRegsBut [dr] s t ∧
    t.pc = s.pc ∧ SameMemory s t ∧ t.inq = s.inq ∧ SameRun s t

/-- 40_alu.md R114: AND, immediate form. -/
def Obligations.AndImmediateForm : Prop :=
  (∀ w : Word, w.extractLsb 15 12 = 0x5#4 → w.getLsbD 5 = true →
    decode w = .andImm (w.extractLsb 11 9).toFin (w.extractLsb 8 6).toFin (w.extractLsb 4 0)) ∧
  ∀ (dr sr1 : Reg) (imm5 : BitVec 5) (s : State), ∃ t, exec (.andImm dr sr1 imm5) s = .next t ∧
    t.reg dr = s.reg sr1 &&& imm5.signExtend 16 ∧ CondFor (s.reg sr1 &&& imm5.signExtend 16) t.cond ∧
    SameRegsBut [dr] s t ∧ t.pc = s.pc ∧ SameMemory s t ∧ t.inq = s.inq ∧ SameRun s t

/-- 40_alu.md R115: NOT. The complement is also 0xFFFF minus the operand. -/
def Obligations.NotComplements : Prop :=
  (∀ w : Word, w.extractLsb 15 12 = 0x9#4 →
    decode w = .notReg (w.extractLsb 11 9).toFin (w.extractLsb 8 6).toFin) ∧
  ∀ (dr sr : Reg) (s : State), ∃ t, exec (.notReg dr sr) s = .next t ∧
    t.reg dr = ~~~ s.reg sr ∧ t.reg dr = 0xFFFF - s.reg sr ∧ CondFor (~~~ s.reg sr) t.cond ∧ SameRegsBut [dr] s t ∧
    t.pc = s.pc ∧ SameMemory s t ∧ t.inq = s.inq ∧ SameRun s t

/-- 40_alu.md R117: the immediate form does what the register form does when SR2 holds the sign-extended immediate. -/
def Obligations.ImmediateAndRegisterFormsAgree : Prop :=
  ∀ (dr sr1 sr2 : Reg) (imm5 : BitVec 5) (s : State), s.reg sr2 = sext imm5 →
    exec (.addImm dr sr1 imm5) s = exec (.addReg dr sr1 sr2) s ∧
    exec (.andImm dr sr1 imm5) s = exec (.andReg dr sr1 sr2) s

/-! ## Control transfer -/

/-- 41_control.md R121: BR. -/
def Obligations.BranchTestsTheMask : Prop :=
  (∀ w : Word, w.extractLsb 15 12 = 0x0#4 → decode w = .br (w.extractLsb 11 9) (w.extractLsb 8 0)) ∧
  ∀ (nzp : BitVec 3) (off9 : BitVec 9) (s : State), exec (.br nzp off9) s =
    .next { s with pc := if (nzp.zeroExtend 16 &&& s.cond) ≠ 0 then s.pc + off9.signExtend 16 else s.pc }

/-- 41_control.md R122: JMP and RET. -/
def Obligations.JumpGoesToBase : Prop :=
  (∀ w : Word, w.extractLsb 15 12 = 0xC#4 → decode w = .jmp (w.extractLsb 8 6).toFin) ∧
  ∀ (b : Reg) (s : State), exec (.jmp b) s = .next { s with pc := s.reg b }

/-- 41_control.md R123: JSR. -/
def Obligations.JsrLinksAndJumpsRelative : Prop :=
  (∀ w : Word, w.extractLsb 15 12 = 0x4#4 → w.getLsbD 11 = true → decode w = .jsr (w.extractLsb 10 0)) ∧
  ∀ (off11 : BitVec 11) (s : State), ∃ t, exec (.jsr off11) s = .next t ∧
    t.reg 7 = s.pc ∧ t.pc = s.pc + off11.signExtend 16 ∧ SameRegsBut [7] s t ∧ t.cond = s.cond ∧
    SameMemory s t ∧ t.inq = s.inq ∧ SameRun s t

/-- 41_control.md R124: JSRR. R7 is written before BaseR is read, so JSRR R7 goes on at the next instruction (the spec's
decision D5, notes/assumptions/12.md). -/
def Obligations.JsrrLinksBeforeReadingBase : Prop :=
  (∀ w : Word, w.extractLsb 15 12 = 0x4#4 → w.getLsbD 11 = false → decode w = .jsrr (w.extractLsb 8 6).toFin) ∧
  ∀ (b : Reg) (s : State), ∃ t, exec (.jsrr b) s = .next t ∧
    t.reg 7 = s.pc ∧ t.pc = (if b = 7 then s.pc else s.reg b) ∧ SameRegsBut [7] s t ∧ t.cond = s.cond ∧
    SameMemory s t ∧ t.inq = s.inq ∧ SameRun s t

/-- 41_control.md R125: after a call by JSR or JSRR in `s`, whatever state the subroutine leaves with R7 untouched, the
step that runs JMP R7 there leaves PC at the instruction after the call. -/
def Obligations.ReturnResumesAfterTheCall : Prop :=
  ∀ (call : Instr) (s t u : State), ((∃ off11, call = .jsr off11) ∨ ∃ b, call = .jsrr b) → exec call s = .next t →
    u.reg 7 = t.reg 7 → Ready u → u.pc ≠ 0xFE00 → decode (u.cell u.pc) = .jmp 7 →
    ∃ v, step u = .next v ∧ v.pc = s.pc

/-! ## Memory and the keyboard -/

/-- 20_memory.md R52: `MemRead`. -/
def Obligations.MemReadPollsOnlyAtKbsr : Prop :=
  ∀ (a : Word) (s : State), ReadEffect a s (memRead a s).2 (memRead a s).1 ∧
    SameRegsBut [] s (memRead a s).2 ∧ (memRead a s).2.pc = s.pc ∧ (memRead a s).2.cond = s.cond ∧
    SameRun s (memRead a s).2

/-- 20_memory.md R53: `MemWrite` stores at every address, 0xFE00 and 0xFE02 too, with no other effect. -/
def Obligations.MemWriteIsAPlainStore : Prop :=
  ∀ (a v : Word) (s : State), StoredOnly a v s (memWrite a v s) ∧ { memWrite a v s with mem := s.mem } = s

/-- 20_memory.md R56, consequences (a) to (d): two reads of KBSR with one key; a second key overwrites the first in
KBDR; reading KBDR changes nothing; a value stored to KBSR does not survive the next read of it. That a poll takes the key
from the queue is the spec's decision D8 (notes/assumptions/15.md). -/
def Obligations.KeyboardPollAndLatch : Prop :=
  (∀ (s : State) (k : Word), s.inq = [k] →
    let r1 := memRead 0xFE00 s
    let r2 := memRead 0xFE00 r1.2
    r1.1 = 0x8000 ∧ r2.1 = 0x0000 ∧ r2.2.cell 0xFE02 = k) ∧
  (∀ (s : State) (k k2 : Word) (ks : List Word), s.inq = k :: k2 :: ks →
    let r2 := memRead 0xFE00 (memRead 0xFE00 s).2
    r2.1 = 0x8000 ∧ r2.2.cell 0xFE02 = k2 ∧ r2.2.inq = ks) ∧
  (∀ s : State, memRead 0xFE02 s = (s.cell 0xFE02, s)) ∧
  (∀ (s : State) (v : Word), (memRead 0xFE00 (memWrite 0xFE00 v s)).1 = (memRead 0xFE00 s).1)

/-- 42_load_store.md R131: LD. -/
def Obligations.LdLoadsPcRelative : Prop :=
  (∀ w : Word, w.extractLsb 15 12 = 0x2#4 → decode w = .ld (w.extractLsb 11 9).toFin (w.extractLsb 8 0)) ∧
  ∀ (dr : Reg) (off9 : BitVec 9) (s : State), ∃ t v, exec (.ld dr off9) s = .next t ∧
    ReadEffect (s.pc + off9.signExtend 16) s t v ∧ t.reg dr = v ∧ CondFor v t.cond ∧ SameRegsBut [dr] s t ∧
    t.pc = s.pc ∧ SameRun s t

/-- 42_load_store.md R132: LDI. The pointer is read first (leaving cells and key queue as in `u`), then the data. -/
def Obligations.LdiLoadsThroughThePointer : Prop :=
  (∀ w : Word, w.extractLsb 15 12 = 0xA#4 → decode w = .ldi (w.extractLsb 11 9).toFin (w.extractLsb 8 0)) ∧
  ∀ (dr : Reg) (off9 : BitVec 9) (s : State), ∃ t u p v, exec (.ldi dr off9) s = .next t ∧
    ReadEffect (s.pc + off9.signExtend 16) s u p ∧ ReadEffect p u t v ∧ t.reg dr = v ∧ CondFor v t.cond ∧
    SameRegsBut [dr] s t ∧ t.pc = s.pc ∧ SameRun s t

/-- 42_load_store.md R133: LDR. -/
def Obligations.LdrLoadsBaseOffset : Prop :=
  (∀ w : Word, w.extractLsb 15 12 = 0x6#4 →
    decode w = .ldr (w.extractLsb 11 9).toFin (w.extractLsb 8 6).toFin (w.extractLsb 5 0)) ∧
  ∀ (dr b : Reg) (off6 : BitVec 6) (s : State), ∃ t v, exec (.ldr dr b off6) s = .next t ∧
    ReadEffect (s.reg b + off6.signExtend 16) s t v ∧ t.reg dr = v ∧ CondFor v t.cond ∧ SameRegsBut [dr] s t ∧
    t.pc = s.pc ∧ SameRun s t

/-- 42_load_store.md R134: LEA sets the flags and reads no memory. -/
def Obligations.LeaGivesTheAddress : Prop :=
  (∀ w : Word, w.extractLsb 15 12 = 0xE#4 → decode w = .lea (w.extractLsb 11 9).toFin (w.extractLsb 8 0)) ∧
  ∀ (dr : Reg) (off9 : BitVec 9) (s : State), ∃ t, exec (.lea dr off9) s = .next t ∧
    t.reg dr = s.pc + off9.signExtend 16 ∧ CondFor (s.pc + off9.signExtend 16) t.cond ∧ SameRegsBut [dr] s t ∧
    t.pc = s.pc ∧ SameMemory s t ∧ t.inq = s.inq ∧ SameRun s t

/-- 42_load_store.md R135: ST. -/
def Obligations.StStoresPcRelative : Prop :=
  (∀ w : Word, w.extractLsb 15 12 = 0x3#4 → decode w = .st (w.extractLsb 11 9).toFin (w.extractLsb 8 0)) ∧
  ∀ (sr : Reg) (off9 : BitVec 9) (s : State), ∃ t, exec (.st sr off9) s = .next t ∧
    StoredOnly (s.pc + off9.signExtend 16) (s.reg sr) s t ∧ SameRegsBut [] s t ∧ t.cond = s.cond ∧ t.pc = s.pc ∧
    t.inq = s.inq ∧ SameRun s t

/-- 42_load_store.md R136: STR. -/
def Obligations.StrStoresBaseOffset : Prop :=
  (∀ w : Word, w.extractLsb 15 12 = 0x7#4 →
    decode w = .str (w.extractLsb 11 9).toFin (w.extractLsb 8 6).toFin (w.extractLsb 5 0)) ∧
  ∀ (sr b : Reg) (off6 : BitVec 6) (s : State), ∃ t, exec (.str sr b off6) s = .next t ∧
    StoredOnly (s.reg b + off6.signExtend 16) (s.reg sr) s t ∧ SameRegsBut [] s t ∧ t.cond = s.cond ∧ t.pc = s.pc ∧
    t.inq = s.inq ∧ SameRun s t

/-- 42_load_store.md R138: with the address A in cell P and the value V in cell A, LDI through P gives V and the flags
of V. The two cells may have been filled by stores, in either order, when A and P differ. -/
def Obligations.LdiRoundTrip : Prop :=
  (∀ (s : State) (dr : Reg) (off9 : BitVec 9) (p a v : Word), p = s.pc + off9.signExtend 16 → p ≠ 0xFE00 → a ≠ 0xFE00 →
    s.cell p = a → s.cell a = v → ∃ t, exec (.ldi dr off9) s = .next t ∧ t.reg dr = v ∧ CondFor v t.cond) ∧
  (∀ (s : State) (p a v : Word), a ≠ p →
    (memWrite a v (memWrite p a s)).cell p = a ∧ (memWrite a v (memWrite p a s)).cell a = v ∧
    (memWrite p a (memWrite a v s)).cell p = a ∧ (memWrite p a (memWrite a v s)).cell a = v)

/-- 20_memory.md R66: a word that ST or STR stores at the address of the next instruction is the one that the next step
runs. -/
def Obligations.StoreIsSeenByTheNextFetch : Prop :=
  ∀ (i : Instr) (s t : State) (sr : Reg), ((∃ off9, i = .st sr off9) ∨ ∃ b off6, i = .str sr b off6) →
    storeAddress i s = some s.pc → s.pc ≠ 0xFE00 → Ready s → exec i s = .next t →
    step t = exec (decode (s.reg sr)) { t with pc := t.pc + 1 }

/-! ## Traps -/

/-- 43_trap_system.md R141: the routine is selected by the low eight bits; TRAP and its routines write no register but R0
(GETC), do not change PC or COND, and store to no memory (a PUTS scan over 0xFE00 refreshes the device registers). The
spec's decisions D6 and D7 (notes/assumptions/13.md, 14.md). `UnfinishedRoutinesChangeNothingElse` says the same of the
steps that go on with a routine. -/
def Obligations.TrapWritesNoLinkage : Prop :=
  (∀ w : Word, w.extractLsb 15 12 = 0xF#4 → decode w =
    if w.extractLsb 7 0 = 0x20#8 then .getc else if w.extractLsb 7 0 = 0x21#8 then .outChar
    else if w.extractLsb 7 0 = 0x22#8 then .puts else if w.extractLsb 7 0 = 0x23#8 then .inChar
    else if w.extractLsb 7 0 = 0x24#8 then .putsp else if w.extractLsb 7 0 = 0x25#8 then .halt
    else .trap (w.extractLsb 7 0)) ∧
  ∀ (w : Word) (s t : State), w.extractLsb 15 12 = 0xF#4 → exec (decode w) s = .next t →
    SameRegsBut [0] s t ∧ (w.extractLsb 7 0 ≠ 0x20#8 → t.reg 0 = s.reg 0) ∧ t.pc = s.pc ∧ t.cond = s.cond ∧
    (w.extractLsb 7 0 ≠ 0x22#8 → SameMemory s t) ∧ ∀ a, a ≠ 0xFE00 → a ≠ 0xFE02 → t.cell a = s.cell a

/-- 43_trap_system.md R145, 10_state.md R37: GETC takes the head of the queue into R0, and nothing else. -/
def Obligations.GetcTakesTheHeadKey : Prop :=
  ∀ (s : State) (k : Word) (ks : List Word), s.inq = k :: ks → ∃ t, exec .getc s = .next t ∧
    t.reg 0 = k ∧ t.inq = ks ∧ SameRegsBut [0] s t ∧ t.pc = s.pc ∧ t.cond = s.cond ∧ SameMemory s t ∧ t.out = s.out ∧
    t.status = s.status ∧ t.cfg = s.cfg ∧ t.routine = none

/-- 43_trap_system.md R145, 10_state.md R37: with no key GETC is held, nothing changed but the mark of it (the model's
choice, notes/assumptions/1.md, of the hold of decision D16); a held machine stays as it is for ever, and the host's next
key lifts the hold. -/
def Obligations.GetcIsHeldUntilAKeyArrives : Prop :=
  (∀ s : State, s.inq = [] → exec .getc s = .next { s with routine := some .getc }) ∧
  (∀ s : State, s.status = .running → s.routine = some .getc → s.inq = [] → step s = .next s) ∧
  (∀ (s : State) (k : Word), s.status = .running → s.routine = some .getc → s.inq = [] →
    ∃ t, step (hostKey k s) = .next t ∧ Ready t ∧ t.reg 0 = k ∧ t.inq = [] ∧ SameRegsBut [0] s t ∧ t.pc = s.pc ∧
      t.cond = s.cond ∧ SameMemory s t ∧ t.out = s.out)

/-- 43_trap_system.md R146: OUT. That all sixteen bits go out is the spec's decision D10 (notes/assumptions/17.md). -/
def Obligations.OutEmitsAllOfR0 : Prop :=
  (∀ w : Word, w.extractLsb 15 12 = 0xF#4 → w.extractLsb 7 0 = 0x21#8 → decode w = .outChar) ∧
  ∀ s : State, exec .outChar s = .next { s with out := s.out ++ [s.reg 0] }

/-- 43_trap_system.md R147: PUTS on a string that does not reach 0xFE00, wrapping at 0xFFFF. That R0 stays is the spec's
decision D21 (notes/assumptions/19.md). A string of `n` words takes `n` more steps of the model after `exec`, one a pass
(notes/assumptions/2.md). -/
def Obligations.PutsEmitsTheString : Prop :=
  ∀ (s : State) (n : Nat), s.status = .running → StringAt s n →
    ∃ u, exec .puts s = .next u ∧ core.run n u = .next { s with out := s.out ++ stringWords s n, routine := none }

/-- 43_trap_system.md R147, 20_memory.md R54: what PUTS does is the rule's own loop, however far it scans and whatever it
polls on the way. The model does one pass a step (its choice, notes/assumptions/2.md): a loop that ends is run to its end by
PUTS and some more steps, and PUTS that has come to its end has run the loop. -/
def Obligations.PutsRunsTheRulesLoop : Prop :=
  (∀ s t : State, s.status = .running → PutsLoop (s.reg 0) s t →
    ∃ u k, exec .puts s = .next u ∧ core.run k u = .next { t with routine := none }) ∧
  (∀ (s u v : State) (k : Nat), s.status = .running → exec .puts s = .next u → core.run k u = .next v →
    (∀ j < k, ∃ w, core.run j u = .next w ∧ w.routine ≠ none) → v.routine = none →
    ∃ t, PutsLoop (s.reg 0) s t ∧ v = { t with routine := none })

/-- 43_trap_system.md R147 (c): the one thing that keeps a scan going for ever is keys: with those queued and none arriving,
an unfinished PUTS ends within as many rounds of the memory as there are keys, and one more. Counting in steps, one for each
pass, is the model's choice (notes/assumptions/2.md). -/
def Obligations.PutsEndsWhenKeysRunOut : Prop :=
  ∀ (s : State) (a : Word), s.status = .running → s.routine = some (.puts a) →
    ∃ k t, k ≤ 65536 * (s.inq.length + 1) ∧ core.run k s = .next t ∧ Ready t

/-- 43_trap_system.md R144, R150, 60_exceptions.md R165: HALT puts out the notice, code by code and still RUNNING, then ends
the run; the notice of the default machine is "HALT" (decision D11, notes/assumptions/18.md). One code a step is the model's
choice (notes/assumptions/2.md). -/
def Obligations.HaltEmitsTheNoticeAndEndsTheRun : Prop :=
  (∀ w : Word, w.extractLsb 15 12 = 0xF#4 → w.extractLsb 7 0 = 0x25#8 → decode w = .halt) ∧
  (∀ s : State, ∃ u, exec .halt s = .next u ∧
    (s.cfg.haltNotice = [] → u = { s with status := .halted, routine := none }) ∧
    (∀ c rest, s.cfg.haltNotice = c :: rest → u = { s with out := s.out ++ [c], routine := some (.halt rest) })) ∧
  (∀ s u : State, s.status = .running → exec .halt s = .next u →
    (∀ j < s.cfg.haltNotice.length, core.run j u = .next { s with
      out := s.out ++ s.cfg.haltNotice.take (j + 1), routine := some (.halt (s.cfg.haltNotice.drop (j + 1))) }) ∧
    ∃ t, core.run s.cfg.haltNotice.length u = .next t ∧
      t = { s with out := s.out ++ s.cfg.haltNotice, status := .halted, routine := none } ∧ ∀ v, step t ≠ .next v) ∧
  State.reset.cfg.haltNotice = [0x48, 0x41, 0x4C, 0x54]

/-- 10_state.md R35, 60_exceptions.md R165: from a state between two instructions, HALT begins (or, with an empty notice, ends
the run at once) exactly when the word fetched has opcode 1111 and low bits 0x25; a HALT that has begun goes back to such a
state; no other step sets HALTED; and a HALT word does end the run, with PC one more than its address and the notice put
out. Its steps are one for each code of the notice and one more, the model's choice (notes/assumptions/2.md). -/
def Obligations.RunHaltsExactlyAtTheHaltWord : Prop :=
  (∀ s t : State, Ready s → step s = .next t →
    ((t.status = .halted ∨ ∃ rest, t.routine = some (.halt rest)) ↔ IsHaltWord (fetch s).1)) ∧
  (∀ (s t : State) (rest : List Word), step s = .next t → t.routine = some (.halt rest) →
    Ready s ∨ ∃ c, s.routine = some (.halt (c :: rest))) ∧
  (∀ s t : State, step s = .next t → (t.status = .halted ↔
    s.routine = some (.halt []) ∨ (Ready s ∧ IsHaltWord (fetch s).1 ∧ s.cfg.haltNotice = []))) ∧
  (∀ s : State, Ready s → IsHaltWord (fetch s).1 → ∃ t, core.run (s.cfg.haltNotice.length + 1) s = .next t ∧
    t.status = .halted ∧ t.pc = s.pc + 1 ∧ t.out = s.out ++ s.cfg.haltNotice)

/-! ## Faults -/

/-- 43_trap_system.md R140, R143, 42_load_store.md R137: RTI, RES and STI, whatever their low twelve bits. -/
def Obligations.RtiResAndStiFailFast : Prop :=
  (∀ w : Word, w.extractLsb 15 12 = 0x8#4 → decode w = .rti) ∧
  (∀ w : Word, w.extractLsb 15 12 = 0xD#4 → decode w = .res) ∧
  (∀ w : Word, w.extractLsb 15 12 = 0xB#4 → ∃ sr off9, decode w = .sti sr off9) ∧
  (∀ s : State, exec .rti s = .next { s with status := .faulted (.unimplementedOperation .opcodeRTI) }) ∧
  (∀ s : State, exec .res s = .next { s with status := .faulted (.unimplementedOperation .opcodeRES) }) ∧
  (∀ (sr : Reg) (off9 : BitVec 9) (s : State),
    exec (.sti sr off9) s = .next { s with status := .faulted (.unimplementedOperation .opcodeSTI) })

/-- 43_trap_system.md R148, R149: IN and PUTSP. -/
def Obligations.InAndPutspFailFast : Prop :=
  (∀ w : Word, w.extractLsb 15 12 = 0xF#4 → w.extractLsb 7 0 = 0x23#8 → decode w = .inChar) ∧
  (∀ w : Word, w.extractLsb 15 12 = 0xF#4 → w.extractLsb 7 0 = 0x24#8 → decode w = .putsp) ∧
  (∀ s : State, exec .inChar s = .next { s with status := .faulted (.unimplementedOperation .trapIN) }) ∧
  (∀ s : State, exec .putsp s = .next { s with status := .faulted (.unimplementedOperation .trapPUTSP) })

/-- 43_trap_system.md R151, 60_exceptions.md R163: TRAP with a vector below 0x20 or above 0x25. The spec's decision D7
(notes/assumptions/14.md). -/
def Obligations.UnknownTrapVectorFaults : Prop :=
  (∀ w : Word, w.extractLsb 15 12 = 0xF#4 → ((w.extractLsb 7 0).toNat < 0x20 ∨ 0x25 < (w.extractLsb 7 0).toNat) →
    decode w = .trap (w.extractLsb 7 0)) ∧
  (∀ (v : BitVec 8) (s : State), exec (.trap v) s = .next { s with status := .faulted (.unknownTrapVector v) })

/-- 60_exceptions.md R161, R163: a step that fetches raises each fault exactly on the words of its row. -/
def Obligations.FaultsHaveExactlyTheListedCauses : Prop :=
  ∀ s t : State, Ready s → step s = .next t →
    let op := (fetch s).1.extractLsb 15 12
    let v := (fetch s).1.extractLsb 7 0
    (t.status = .faulted (.unimplementedOperation .opcodeRTI) ↔ op = 0x8#4) ∧
    (t.status = .faulted (.unimplementedOperation .opcodeSTI) ↔ op = 0xB#4) ∧
    (t.status = .faulted (.unimplementedOperation .opcodeRES) ↔ op = 0xD#4) ∧
    (t.status = .faulted (.unimplementedOperation .trapIN) ↔ op = 0xF#4 ∧ v = 0x23#8) ∧
    (t.status = .faulted (.unimplementedOperation .trapPUTSP) ↔ op = 0xF#4 ∧ v = 0x24#8) ∧
    (∀ x, t.status = .faulted (.unknownTrapVector x) ↔ op = 0xF#4 ∧ v = x ∧ (x.toNat < 0x20 ∨ 0x25 < x.toNat))

/-- 60_exceptions.md R164: the state at a fault: PC is one more than the address of the faulting word, and nothing else
has changed, but for the refresh when the word was fetched from 0xFE00; and the machine never goes on. The spec's decision
D12 (notes/assumptions/9.md). -/
def Obligations.FaultLeavesThePreciseState : Prop :=
  ∀ (s t : State) (why : FaultId), Ready s → step s = .next t → t.status = .faulted why →
    t.pc = s.pc + 1 ∧ ReadEffect s.pc s t (fetch s).1 ∧ SameRegsBut [] s t ∧ t.cond = s.cond ∧ t.out = s.out ∧
    t.routine = none ∧ t.cfg = s.cfg ∧ (s.pc ≠ 0xFE00 → t = { s with pc := s.pc + 1, status := .faulted why }) ∧
    ∀ u, step t ≠ .next u

/-! ## The host and reset -/

/-- 60_exceptions.md R170: a key arriving changes nothing until the program reads 0xFE00 or executes GETC: a step that
does neither does the same with the key as without it, and the key then stands at the end of the queue. For PUTS it is said
of each pass, as one step of the model is one pass and looks at the queue once at most (the model's choices,
notes/assumptions/2.md, 24.md): a pass at 0xFE00 sees the keys that came before it. -/
def Obligations.KeyArrivalIsInvisibleUntilPolled : Prop :=
  (∀ (s t : State) (k : Word), Ready s → s.pc ≠ 0xFE00 →
    NoKeyboard (decode (s.cell s.pc)) { s with pc := s.pc + 1 } → step s = .next t →
    step (hostKey k s) = .next (hostKey k t)) ∧
  (∀ (s t : State) (k : Word) (r : Routine), s.routine = some r → r ≠ .getc → r ≠ .puts 0xFE00 → step s = .next t →
    step (hostKey k s) = .next (hostKey k t))

/-- 10_state.md R36: the queue is first in, first out: behind a key that is queued already, one more changes nothing in
any step, a GETC and a pass of PUTS at 0xFE00 included. It is said of a step of the model, which takes at most one key: a
PUTS is a step for each of its passes (the model's choice, notes/assumptions/2.md, 24.md). -/
def Obligations.KeyQueueIsFirstInFirstOut : Prop :=
  ∀ (s t : State) (k q : Word) (qs : List Word), s.inq = q :: qs → step s = .next t →
    step (hostKey k s) = .next (hostKey k t)

/-- 10_state.md R40: reset. The values of `cfg` are the defaults of 00_scope.md R7, and no cell is listed, so each reads as
zero, the default of INIT_MEM (the model's reading, notes/assumptions/3.md). COND = 0 is the spec's decision D4
(notes/assumptions/11.md), empty `out` its D19; empty `inq` and `routine` are the model's choice (notes/assumptions/20.md,
23.md). -/
def Obligations.ResetState : Prop :=
  State.reset.registerFile = [0, 0, 0, 0, 0, 0, 0, 0, 0x3000, 0] ∧ State.reset.status = .running ∧
  State.reset.inq = [] ∧ State.reset.out = [] ∧ State.reset.routine = none ∧ (∀ a, State.reset.cell a = 0) ∧
  State.reset.cfg.keyMax = 0xFF ∧
  ∀ (c : Config) (m : Memory) (q : List Word),
    (State.resetWith c m q).registerFile = [0, 0, 0, 0, 0, 0, 0, 0, 0x3000, 0] ∧
    (State.resetWith c m q).status = .running ∧ (State.resetWith c m q).out = [] ∧ (State.resetWith c m q).inq = q ∧
    (State.resetWith c m q).cfg = c ∧ (State.resetWith c m q).routine = none ∧
    ∀ a, (State.resetWith c m q).cell a = Memory.read m a

/-- 70_reset_and_hazards.md R193, R194: the memory of a ROM image, the images refused (the spec's decision D14,
notes/assumptions/22.md), and the entry point. -/
def Obligations.ImageIsPlacedFromItsOrigin : Prop :=
  ∀ image : List Byte,
    let g : Nat → Word := fun i => image.getD (2 * i) 0 ++ image.getD (2 * i + 1) 0
    let m := image.length / 2 - 1
    (imageMemory image = none ↔ image.length < 2 ∨ image.length % 2 = 1 ∨ 65536 < (g 0).toNat + m) ∧
    (∀ mem, imageMemory image = some mem → Memory.wf mem ∧ ∀ a : Word, Memory.read mem a =
      if (g 0).toNat ≤ a.toNat ∧ a.toNat < (g 0).toNat + m then g (a.toNat - (g 0).toNat + 1) else 0) ∧
    (∀ (c : Config) (q : List Word) (s : State), bootImage c image q = some s →
      s.pc = 0x3000 ∧ ∃ mem, imageMemory image = some mem ∧ s = State.resetWith c mem q)

/-! ## The invariant -/

/-- 10_state.md R26, R29, R36, 20_memory.md R50, 60_exceptions.md R165: every step, and every key the host appends, keeps the
invariant. -/
def Obligations.EveryMoveKeepsTheInvariant : Prop :=
  (∀ s t : State, s.Inv → step s = .next t → t.Inv) ∧
  (∀ (s : State) (k : Word), s.Inv → k ≤ s.cfg.keyMax → (hostKey k s).Inv)

/-- 10_state.md R40: reset meets the invariant, whatever well-formed memory and key codes the host starts with. -/
def Obligations.ResetMeetsTheInvariant : Prop :=
  State.reset.Inv ∧
  ∀ (c : Config) (m : Memory) (q : List Word), Memory.wf m → (∀ k ∈ q, k ≤ c.keyMax) → (State.resetWith c m q).Inv

/-! ## Unfinished routines -/

/-- 43_trap_system.md R144, R147: PUTS, and each step that goes on with it, is one pass of the rule's loop: one `MemRead` at
the address reached, then the end of the routine at a zero word, or that word put out and the next address to come. A pass a
step is the model's choice (notes/assumptions/2.md), so that the host can act between two characters. -/
def Obligations.PutsDoesOnePassAStep : Prop :=
  (∀ s : State, ∃ t c, exec .puts s = .next t ∧ PutsPass (s.reg 0) s t c) ∧
  (∀ (s : State) (a : Word), s.status = .running → s.routine = some (.puts a) →
    ∃ t c, step s = .next t ∧ PutsPass a s t c)

/-- 43_trap_system.md R141, R144: a step that goes on with an unfinished routine fetches no word and leaves general registers
(but R0 of GETC), PC, COND, parameters and every cell but 0xFE00 and 0xFE02 as they are, these two as well unless it is a
pass of PUTS at 0xFE00, and the run status unless the notice of a HALT is all out. That there are such steps is the model's
choice (notes/assumptions/1.md, 2.md), where R144 has the whole routine inside the step of its TRAP word; that a routine
writes no other register, nor PC or COND, is the spec's decision D6 (notes/assumptions/13.md). -/
def Obligations.UnfinishedRoutinesChangeNothingElse : Prop :=
  ∀ (s t : State) (r : Routine), s.routine = some r → step s = .next t →
    SameRegsBut [0] s t ∧ (r ≠ .getc → t.reg 0 = s.reg 0) ∧ t.pc = s.pc ∧ t.cond = s.cond ∧ t.cfg = s.cfg ∧
    (r ≠ .halt [] → t.status = s.status) ∧ (r ≠ .puts 0xFE00 → SameMemory s t) ∧
    ∀ a, a ≠ 0xFE00 → a ≠ 0xFE02 → t.cell a = s.cell a
end

