-- ==== Sys2Proof/Laws/Decode.lean ====
section
/-! SUPPORT. Words as numbers: the fields of a word, the word of each instruction, and the decoder opcode by opcode. -/

namespace Sys2Proof

theorem extractLsb_toNat (w : Word) (hi lo : Nat) :
    (w.extractLsb hi lo).toNat = w.toNat / 2 ^ lo % 2 ^ (hi - lo + 1) := by
  simp [BitVec.extractLsb, BitVec.extractLsb', Nat.shiftRight_eq_div_pow]

theorem append_toNat {m n : Nat} (x : BitVec m) (y : BitVec n) : (x ++ y).toNat = x.toNat * 2 ^ n + y.toNat := by
  rw [BitVec.toNat_append, ← Nat.shiftLeft_add_eq_or_of_lt y.isLt, Nat.shiftLeft_eq]

@[simp] theorem regBits_toNat (r : Reg) : (regBits r).toNat = r.val := rfl

/-! Fields. -/

theorem opcodeOf_toNat (w : Word) : (opcodeOf w).toNat = w.toNat / 4096 := by
  have := w.isLt
  have h : (opcodeOf w).toNat = w.toNat / 4096 % 16 := extractLsb_toNat w 15 12
  omega

/-- The opcode is `k` when the number `w / 4096` is. -/
theorem opcodeOf_eq {w : Word} {k : BitVec 4} (h : w.toNat / 4096 = k.toNat) : opcodeOf w = k :=
  BitVec.eq_of_toNat_eq ((opcodeOf_toNat w).trans h)

theorem fieldDR_val (w : Word) : (fieldDR w).val = w.toNat / 512 % 8 := extractLsb_toNat w 11 9
theorem fieldSR1_val (w : Word) : (fieldSR1 w).val = w.toNat / 64 % 8 := extractLsb_toNat w 8 6
theorem fieldSR2_val (w : Word) : (fieldSR2 w).val = w.toNat % 8 := by
  have h : (fieldSR2 w).val = w.toNat / 1 % 8 := extractLsb_toNat w 2 0
  omega
theorem fieldNzp_toNat (w : Word) : (fieldNzp w).toNat = w.toNat / 512 % 8 := extractLsb_toNat w 11 9
theorem fieldImm5_toNat (w : Word) : (fieldImm5 w).toNat = w.toNat % 32 := by
  have h : (fieldImm5 w).toNat = w.toNat / 1 % 32 := extractLsb_toNat w 4 0
  omega
theorem fieldOff6_toNat (w : Word) : (fieldOff6 w).toNat = w.toNat % 64 := by
  have h : (fieldOff6 w).toNat = w.toNat / 1 % 64 := extractLsb_toNat w 5 0
  omega
theorem fieldOff9_toNat (w : Word) : (fieldOff9 w).toNat = w.toNat % 512 := by
  have h : (fieldOff9 w).toNat = w.toNat / 1 % 512 := extractLsb_toNat w 8 0
  omega
theorem fieldOff11_toNat (w : Word) : (fieldOff11 w).toNat = w.toNat % 2048 := by
  have h : (fieldOff11 w).toNat = w.toNat / 1 % 2048 := extractLsb_toNat w 10 0
  omega
theorem fieldVect8_toNat (w : Word) : (fieldVect8 w).toNat = w.toNat % 256 := by
  have h : (fieldVect8 w).toNat = w.toNat / 1 % 256 := extractLsb_toNat w 7 0
  omega
theorem fieldF_eq (w : Word) : fieldF w = decide (w.toNat / 32 % 2 = 1) := by
  rw [fieldF, BitVec.getLsbD, Nat.testBit_eq_decide_div_mod_eq]
theorem fieldL_eq (w : Word) : fieldL w = decide (w.toNat / 2048 % 2 = 1) := by
  rw [fieldL, BitVec.getLsbD, Nat.testBit_eq_decide_div_mod_eq]

/-! The word of each instruction, as a number. -/

theorem encode_br_toNat (nzp : BitVec 3) (off9 : BitVec 9) :
    (encode (.br nzp off9)).toNat = nzp.toNat * 512 + off9.toNat := by
  have h0 := append_toNat 0b0000#4 (nzp)
  have h1 := append_toNat (0b0000#4 ++ nzp) (off9)
  have e : (encode (.br nzp off9)).toNat = (0b0000#4 ++ nzp ++ off9).toNat := rfl
  simp only [h1, h0, BitVec.toNat_ofNat, Nat.reduceMod, Nat.reducePow, Nat.zero_mul, Nat.zero_add] at e
  clear h0
  omega

theorem encode_addReg_toNat (dr sr1 sr2 : Reg) :
    (encode (.addReg dr sr1 sr2)).toNat = 4096 + dr.val * 512 + sr1.val * 64 + sr2.val := by
  have h0 := append_toNat 0b0001#4 (regBits dr)
  have h1 := append_toNat (0b0001#4 ++ regBits dr) (regBits sr1)
  have h2 := append_toNat (0b0001#4 ++ regBits dr ++ regBits sr1) (0b000#3)
  have h3 := append_toNat (0b0001#4 ++ regBits dr ++ regBits sr1 ++ 0b000#3) (regBits sr2)
  have e : (encode (.addReg dr sr1 sr2)).toNat = (0b0001#4 ++ regBits dr ++ regBits sr1 ++ 0b000#3 ++ regBits sr2).toNat := rfl
  simp only [h3, h2, h1, h0, regBits_toNat, BitVec.toNat_ofNat, Nat.reduceMod, Nat.reducePow] at e
  clear h0
  omega

theorem encode_addImm_toNat (dr sr1 : Reg) (imm5 : BitVec 5) :
    (encode (.addImm dr sr1 imm5)).toNat = 4096 + dr.val * 512 + sr1.val * 64 + 32 + imm5.toNat := by
  have h0 := append_toNat 0b0001#4 (regBits dr)
  have h1 := append_toNat (0b0001#4 ++ regBits dr) (regBits sr1)
  have h2 := append_toNat (0b0001#4 ++ regBits dr ++ regBits sr1) (0b1#1)
  have h3 := append_toNat (0b0001#4 ++ regBits dr ++ regBits sr1 ++ 0b1#1) (imm5)
  have e : (encode (.addImm dr sr1 imm5)).toNat = (0b0001#4 ++ regBits dr ++ regBits sr1 ++ 0b1#1 ++ imm5).toNat := rfl
  simp only [h3, h2, h1, h0, regBits_toNat, BitVec.toNat_ofNat, Nat.reduceMod, Nat.reducePow] at e
  clear h0
  omega

theorem encode_ld_toNat (dr : Reg) (off9 : BitVec 9) :
    (encode (.ld dr off9)).toNat = 8192 + dr.val * 512 + off9.toNat := by
  have h0 := append_toNat 0b0010#4 (regBits dr)
  have h1 := append_toNat (0b0010#4 ++ regBits dr) (off9)
  have e : (encode (.ld dr off9)).toNat = (0b0010#4 ++ regBits dr ++ off9).toNat := rfl
  simp only [h1, h0, regBits_toNat, BitVec.toNat_ofNat, Nat.reduceMod, Nat.reducePow] at e
  clear h0
  omega

theorem encode_st_toNat (sr : Reg) (off9 : BitVec 9) :
    (encode (.st sr off9)).toNat = 12288 + sr.val * 512 + off9.toNat := by
  have h0 := append_toNat 0b0011#4 (regBits sr)
  have h1 := append_toNat (0b0011#4 ++ regBits sr) (off9)
  have e : (encode (.st sr off9)).toNat = (0b0011#4 ++ regBits sr ++ off9).toNat := rfl
  simp only [h1, h0, regBits_toNat, BitVec.toNat_ofNat, Nat.reduceMod, Nat.reducePow] at e
  clear h0
  omega

theorem encode_jsrr_toNat (baseR : Reg) :
    (encode (.jsrr baseR)).toNat = 16384 + baseR.val * 64 := by
  have h0 := append_toNat 0b0100#4 (0b000#3)
  have h1 := append_toNat (0b0100#4 ++ 0b000#3) (regBits baseR)
  have h2 := append_toNat (0b0100#4 ++ 0b000#3 ++ regBits baseR) (0b000000#6)
  have e : (encode (.jsrr baseR)).toNat = (0b0100#4 ++ 0b000#3 ++ regBits baseR ++ 0b000000#6).toNat := rfl
  simp only [h2, h1, h0, regBits_toNat, BitVec.toNat_ofNat, Nat.reduceMod, Nat.reducePow] at e
  clear h0
  omega

theorem encode_jsr_toNat (off11 : BitVec 11) :
    (encode (.jsr off11)).toNat = 16384 + 2048 + off11.toNat := by
  have h0 := append_toNat 0b0100#4 (0b1#1)
  have h1 := append_toNat (0b0100#4 ++ 0b1#1) (off11)
  have e : (encode (.jsr off11)).toNat = (0b0100#4 ++ 0b1#1 ++ off11).toNat := rfl
  simp only [h1, h0, BitVec.toNat_ofNat, Nat.reduceMod, Nat.reducePow] at e
  clear h0
  omega

theorem encode_andReg_toNat (dr sr1 sr2 : Reg) :
    (encode (.andReg dr sr1 sr2)).toNat = 20480 + dr.val * 512 + sr1.val * 64 + sr2.val := by
  have h0 := append_toNat 0b0101#4 (regBits dr)
  have h1 := append_toNat (0b0101#4 ++ regBits dr) (regBits sr1)
  have h2 := append_toNat (0b0101#4 ++ regBits dr ++ regBits sr1) (0b000#3)
  have h3 := append_toNat (0b0101#4 ++ regBits dr ++ regBits sr1 ++ 0b000#3) (regBits sr2)
  have e : (encode (.andReg dr sr1 sr2)).toNat = (0b0101#4 ++ regBits dr ++ regBits sr1 ++ 0b000#3 ++ regBits sr2).toNat := rfl
  simp only [h3, h2, h1, h0, regBits_toNat, BitVec.toNat_ofNat, Nat.reduceMod, Nat.reducePow] at e
  clear h0
  omega

theorem encode_andImm_toNat (dr sr1 : Reg) (imm5 : BitVec 5) :
    (encode (.andImm dr sr1 imm5)).toNat = 20480 + dr.val * 512 + sr1.val * 64 + 32 + imm5.toNat := by
  have h0 := append_toNat 0b0101#4 (regBits dr)
  have h1 := append_toNat (0b0101#4 ++ regBits dr) (regBits sr1)
  have h2 := append_toNat (0b0101#4 ++ regBits dr ++ regBits sr1) (0b1#1)
  have h3 := append_toNat (0b0101#4 ++ regBits dr ++ regBits sr1 ++ 0b1#1) (imm5)
  have e : (encode (.andImm dr sr1 imm5)).toNat = (0b0101#4 ++ regBits dr ++ regBits sr1 ++ 0b1#1 ++ imm5).toNat := rfl
  simp only [h3, h2, h1, h0, regBits_toNat, BitVec.toNat_ofNat, Nat.reduceMod, Nat.reducePow] at e
  clear h0
  omega

theorem encode_ldr_toNat (dr baseR : Reg) (off6 : BitVec 6) :
    (encode (.ldr dr baseR off6)).toNat = 24576 + dr.val * 512 + baseR.val * 64 + off6.toNat := by
  have h0 := append_toNat 0b0110#4 (regBits dr)
  have h1 := append_toNat (0b0110#4 ++ regBits dr) (regBits baseR)
  have h2 := append_toNat (0b0110#4 ++ regBits dr ++ regBits baseR) (off6)
  have e : (encode (.ldr dr baseR off6)).toNat = (0b0110#4 ++ regBits dr ++ regBits baseR ++ off6).toNat := rfl
  simp only [h2, h1, h0, regBits_toNat, BitVec.toNat_ofNat, Nat.reduceMod, Nat.reducePow] at e
  clear h0
  omega

theorem encode_str_toNat (sr baseR : Reg) (off6 : BitVec 6) :
    (encode (.str sr baseR off6)).toNat = 28672 + sr.val * 512 + baseR.val * 64 + off6.toNat := by
  have h0 := append_toNat 0b0111#4 (regBits sr)
  have h1 := append_toNat (0b0111#4 ++ regBits sr) (regBits baseR)
  have h2 := append_toNat (0b0111#4 ++ regBits sr ++ regBits baseR) (off6)
  have e : (encode (.str sr baseR off6)).toNat = (0b0111#4 ++ regBits sr ++ regBits baseR ++ off6).toNat := rfl
  simp only [h2, h1, h0, regBits_toNat, BitVec.toNat_ofNat, Nat.reduceMod, Nat.reducePow] at e
  clear h0
  omega

theorem encode_notReg_toNat (dr sr : Reg) :
    (encode (.notReg dr sr)).toNat = 36864 + dr.val * 512 + sr.val * 64 + 63 := by
  have h0 := append_toNat 0b1001#4 (regBits dr)
  have h1 := append_toNat (0b1001#4 ++ regBits dr) (regBits sr)
  have h2 := append_toNat (0b1001#4 ++ regBits dr ++ regBits sr) (0b111111#6)
  have e : (encode (.notReg dr sr)).toNat = (0b1001#4 ++ regBits dr ++ regBits sr ++ 0b111111#6).toNat := rfl
  simp only [h2, h1, h0, regBits_toNat, BitVec.toNat_ofNat, Nat.reduceMod, Nat.reducePow] at e
  clear h0
  omega

theorem encode_ldi_toNat (dr : Reg) (off9 : BitVec 9) :
    (encode (.ldi dr off9)).toNat = 40960 + dr.val * 512 + off9.toNat := by
  have h0 := append_toNat 0b1010#4 (regBits dr)
  have h1 := append_toNat (0b1010#4 ++ regBits dr) (off9)
  have e : (encode (.ldi dr off9)).toNat = (0b1010#4 ++ regBits dr ++ off9).toNat := rfl
  simp only [h1, h0, regBits_toNat, BitVec.toNat_ofNat, Nat.reduceMod, Nat.reducePow] at e
  clear h0
  omega

theorem encode_sti_toNat (sr : Reg) (off9 : BitVec 9) :
    (encode (.sti sr off9)).toNat = 45056 + sr.val * 512 + off9.toNat := by
  have h0 := append_toNat 0b1011#4 (regBits sr)
  have h1 := append_toNat (0b1011#4 ++ regBits sr) (off9)
  have e : (encode (.sti sr off9)).toNat = (0b1011#4 ++ regBits sr ++ off9).toNat := rfl
  simp only [h1, h0, regBits_toNat, BitVec.toNat_ofNat, Nat.reduceMod, Nat.reducePow] at e
  clear h0
  omega

theorem encode_jmp_toNat (baseR : Reg) :
    (encode (.jmp baseR)).toNat = 49152 + baseR.val * 64 := by
  have h0 := append_toNat 0b1100#4 (0b000#3)
  have h1 := append_toNat (0b1100#4 ++ 0b000#3) (regBits baseR)
  have h2 := append_toNat (0b1100#4 ++ 0b000#3 ++ regBits baseR) (0b000000#6)
  have e : (encode (.jmp baseR)).toNat = (0b1100#4 ++ 0b000#3 ++ regBits baseR ++ 0b000000#6).toNat := rfl
  simp only [h2, h1, h0, regBits_toNat, BitVec.toNat_ofNat, Nat.reduceMod, Nat.reducePow] at e
  clear h0
  omega

theorem encode_lea_toNat (dr : Reg) (off9 : BitVec 9) :
    (encode (.lea dr off9)).toNat = 57344 + dr.val * 512 + off9.toNat := by
  have h0 := append_toNat 0b1110#4 (regBits dr)
  have h1 := append_toNat (0b1110#4 ++ regBits dr) (off9)
  have e : (encode (.lea dr off9)).toNat = (0b1110#4 ++ regBits dr ++ off9).toNat := rfl
  simp only [h1, h0, regBits_toNat, BitVec.toNat_ofNat, Nat.reduceMod, Nat.reducePow] at e
  clear h0
  omega

theorem encode_trap_toNat (v : BitVec 8) :
    (encode (.trap v)).toNat = 61440 + v.toNat := by
  have h0 := append_toNat 0b1111#4 (0b0000#4)
  have h1 := append_toNat (0b1111#4 ++ 0b0000#4) (v)
  have e : (encode (.trap v)).toNat = (0b1111#4 ++ 0b0000#4 ++ v).toNat := rfl
  simp only [h1, h0, BitVec.toNat_ofNat, Nat.reduceMod, Nat.reducePow] at e
  clear h0
  omega

/-! The decoder, opcode by opcode. -/

theorem decode_op0 (w : Word) (h : opcodeOf w = 0x0) :
    decode w = .br (fieldNzp w) (fieldOff9 w) := by
  simp [decode, h]

theorem decode_op1 (w : Word) (h : opcodeOf w = 0x1) :
    decode w = if fieldF w then .addImm (fieldDR w) (fieldSR1 w) (fieldImm5 w)
      else .addReg (fieldDR w) (fieldSR1 w) (fieldSR2 w) := by
  simp [decode, h]

theorem decode_op2 (w : Word) (h : opcodeOf w = 0x2) :
    decode w = .ld (fieldDR w) (fieldOff9 w) := by
  simp [decode, h]

theorem decode_op3 (w : Word) (h : opcodeOf w = 0x3) :
    decode w = .st (fieldDR w) (fieldOff9 w) := by
  simp [decode, h]

theorem decode_op4 (w : Word) (h : opcodeOf w = 0x4) :
    decode w = if fieldL w then .jsr (fieldOff11 w) else .jsrr (fieldSR1 w) := by
  simp [decode, h]

theorem decode_op5 (w : Word) (h : opcodeOf w = 0x5) :
    decode w = if fieldF w then .andImm (fieldDR w) (fieldSR1 w) (fieldImm5 w)
      else .andReg (fieldDR w) (fieldSR1 w) (fieldSR2 w) := by
  simp [decode, h]

theorem decode_op6 (w : Word) (h : opcodeOf w = 0x6) :
    decode w = .ldr (fieldDR w) (fieldSR1 w) (fieldOff6 w) := by
  simp [decode, h]

theorem decode_op7 (w : Word) (h : opcodeOf w = 0x7) :
    decode w = .str (fieldDR w) (fieldSR1 w) (fieldOff6 w) := by
  simp [decode, h]

theorem decode_op8 (w : Word) (h : opcodeOf w = 0x8) :
    decode w = .rti := by
  simp [decode, h]

theorem decode_op9 (w : Word) (h : opcodeOf w = 0x9) :
    decode w = .notReg (fieldDR w) (fieldSR1 w) := by
  simp [decode, h]

theorem decode_opA (w : Word) (h : opcodeOf w = 0xA) :
    decode w = .ldi (fieldDR w) (fieldOff9 w) := by
  simp [decode, h]

theorem decode_opB (w : Word) (h : opcodeOf w = 0xB) :
    decode w = .sti (fieldDR w) (fieldOff9 w) := by
  simp [decode, h]

theorem decode_opC (w : Word) (h : opcodeOf w = 0xC) :
    decode w = .jmp (fieldSR1 w) := by
  simp [decode, h]

theorem decode_opD (w : Word) (h : opcodeOf w = 0xD) :
    decode w = .res := by
  simp [decode, h]

theorem decode_opE (w : Word) (h : opcodeOf w = 0xE) :
    decode w = .lea (fieldDR w) (fieldOff9 w) := by
  simp [decode, h]

theorem decode_opF (w : Word) (h : opcodeOf w = 0xF) :
    decode w = decodeTrap (fieldVect8 w) := by
  simp [decode, h]

theorem decodeTrap_other {v : BitVec 8} (h : trapVectorNamed v = false) : decodeTrap v = .trap v := by
  unfold decodeTrap
  repeat' split
  all_goals first
    | rfl
    | (subst v; simp [trapVectorNamed] at h)

end Sys2Proof
end

