-- ==== Sys2Proof/Laws/State.lean ====
section
/-! SUPPORT. The state record: one lemma per field per update of Machine/Ops.lean, and the register and cell views. -/

namespace Sys2Proof.Machine

@[simp] theorem State.setReg_regs (s : State) (r : Reg) (v : Word) : (s.setReg r v).regs = s.regs.set r v := rfl
@[simp] theorem State.setReg_pc (s : State) (r : Reg) (v : Word) : (s.setReg r v).pc = s.pc := rfl
@[simp] theorem State.setReg_cond (s : State) (r : Reg) (v : Word) : (s.setReg r v).cond = s.cond := rfl
@[simp] theorem State.setReg_mem (s : State) (r : Reg) (v : Word) : (s.setReg r v).mem = s.mem := rfl
@[simp] theorem State.setReg_status (s : State) (r : Reg) (v : Word) : (s.setReg r v).status = s.status := rfl
@[simp] theorem State.setReg_inq (s : State) (r : Reg) (v : Word) : (s.setReg r v).inq = s.inq := rfl
@[simp] theorem State.setReg_out (s : State) (r : Reg) (v : Word) : (s.setReg r v).out = s.out := rfl
@[simp] theorem State.setReg_routine (s : State) (r : Reg) (v : Word) : (s.setReg r v).routine = s.routine := rfl
@[simp] theorem State.setReg_cfg (s : State) (r : Reg) (v : Word) : (s.setReg r v).cfg = s.cfg := rfl

@[simp] theorem State.setPc_regs (s : State) (v : Word) : (s.setPc v).regs = s.regs := rfl
@[simp] theorem State.setPc_pc (s : State) (v : Word) : (s.setPc v).pc = v := rfl
@[simp] theorem State.setPc_cond (s : State) (v : Word) : (s.setPc v).cond = s.cond := rfl
@[simp] theorem State.setPc_mem (s : State) (v : Word) : (s.setPc v).mem = s.mem := rfl
@[simp] theorem State.setPc_status (s : State) (v : Word) : (s.setPc v).status = s.status := rfl
@[simp] theorem State.setPc_inq (s : State) (v : Word) : (s.setPc v).inq = s.inq := rfl
@[simp] theorem State.setPc_out (s : State) (v : Word) : (s.setPc v).out = s.out := rfl
@[simp] theorem State.setPc_routine (s : State) (v : Word) : (s.setPc v).routine = s.routine := rfl
@[simp] theorem State.setPc_cfg (s : State) (v : Word) : (s.setPc v).cfg = s.cfg := rfl

@[simp] theorem State.setCond_regs (s : State) (v : Word) : (s.setCond v).regs = s.regs := rfl
@[simp] theorem State.setCond_pc (s : State) (v : Word) : (s.setCond v).pc = s.pc := rfl
@[simp] theorem State.setCond_cond (s : State) (v : Word) : (s.setCond v).cond = v := rfl
@[simp] theorem State.setCond_mem (s : State) (v : Word) : (s.setCond v).mem = s.mem := rfl
@[simp] theorem State.setCond_status (s : State) (v : Word) : (s.setCond v).status = s.status := rfl
@[simp] theorem State.setCond_inq (s : State) (v : Word) : (s.setCond v).inq = s.inq := rfl
@[simp] theorem State.setCond_out (s : State) (v : Word) : (s.setCond v).out = s.out := rfl
@[simp] theorem State.setCond_routine (s : State) (v : Word) : (s.setCond v).routine = s.routine := rfl
@[simp] theorem State.setCond_cfg (s : State) (v : Word) : (s.setCond v).cfg = s.cfg := rfl

@[simp] theorem State.setMem_regs (s : State) (v : Memory) : (s.setMem v).regs = s.regs := rfl
@[simp] theorem State.setMem_pc (s : State) (v : Memory) : (s.setMem v).pc = s.pc := rfl
@[simp] theorem State.setMem_cond (s : State) (v : Memory) : (s.setMem v).cond = s.cond := rfl
@[simp] theorem State.setMem_mem (s : State) (v : Memory) : (s.setMem v).mem = v := rfl
@[simp] theorem State.setMem_status (s : State) (v : Memory) : (s.setMem v).status = s.status := rfl
@[simp] theorem State.setMem_inq (s : State) (v : Memory) : (s.setMem v).inq = s.inq := rfl
@[simp] theorem State.setMem_out (s : State) (v : Memory) : (s.setMem v).out = s.out := rfl
@[simp] theorem State.setMem_routine (s : State) (v : Memory) : (s.setMem v).routine = s.routine := rfl
@[simp] theorem State.setMem_cfg (s : State) (v : Memory) : (s.setMem v).cfg = s.cfg := rfl

@[simp] theorem State.setStatus_regs (s : State) (v : Status) : (s.setStatus v).regs = s.regs := rfl
@[simp] theorem State.setStatus_pc (s : State) (v : Status) : (s.setStatus v).pc = s.pc := rfl
@[simp] theorem State.setStatus_cond (s : State) (v : Status) : (s.setStatus v).cond = s.cond := rfl
@[simp] theorem State.setStatus_mem (s : State) (v : Status) : (s.setStatus v).mem = s.mem := rfl
@[simp] theorem State.setStatus_status (s : State) (v : Status) : (s.setStatus v).status = v := rfl
@[simp] theorem State.setStatus_inq (s : State) (v : Status) : (s.setStatus v).inq = s.inq := rfl
@[simp] theorem State.setStatus_out (s : State) (v : Status) : (s.setStatus v).out = s.out := rfl
@[simp] theorem State.setStatus_routine (s : State) (v : Status) : (s.setStatus v).routine = s.routine := rfl
@[simp] theorem State.setStatus_cfg (s : State) (v : Status) : (s.setStatus v).cfg = s.cfg := rfl

@[simp] theorem State.setInq_regs (s : State) (v : List Word) : (s.setInq v).regs = s.regs := rfl
@[simp] theorem State.setInq_pc (s : State) (v : List Word) : (s.setInq v).pc = s.pc := rfl
@[simp] theorem State.setInq_cond (s : State) (v : List Word) : (s.setInq v).cond = s.cond := rfl
@[simp] theorem State.setInq_mem (s : State) (v : List Word) : (s.setInq v).mem = s.mem := rfl
@[simp] theorem State.setInq_status (s : State) (v : List Word) : (s.setInq v).status = s.status := rfl
@[simp] theorem State.setInq_inq (s : State) (v : List Word) : (s.setInq v).inq = v := rfl
@[simp] theorem State.setInq_out (s : State) (v : List Word) : (s.setInq v).out = s.out := rfl
@[simp] theorem State.setInq_routine (s : State) (v : List Word) : (s.setInq v).routine = s.routine := rfl
@[simp] theorem State.setInq_cfg (s : State) (v : List Word) : (s.setInq v).cfg = s.cfg := rfl

@[simp] theorem State.setOut_regs (s : State) (v : List Word) : (s.setOut v).regs = s.regs := rfl
@[simp] theorem State.setOut_pc (s : State) (v : List Word) : (s.setOut v).pc = s.pc := rfl
@[simp] theorem State.setOut_cond (s : State) (v : List Word) : (s.setOut v).cond = s.cond := rfl
@[simp] theorem State.setOut_mem (s : State) (v : List Word) : (s.setOut v).mem = s.mem := rfl
@[simp] theorem State.setOut_status (s : State) (v : List Word) : (s.setOut v).status = s.status := rfl
@[simp] theorem State.setOut_inq (s : State) (v : List Word) : (s.setOut v).inq = s.inq := rfl
@[simp] theorem State.setOut_out (s : State) (v : List Word) : (s.setOut v).out = v := rfl
@[simp] theorem State.setOut_routine (s : State) (v : List Word) : (s.setOut v).routine = s.routine := rfl
@[simp] theorem State.setOut_cfg (s : State) (v : List Word) : (s.setOut v).cfg = s.cfg := rfl

@[simp] theorem State.setRoutine_regs (s : State) (v : Option Routine) : (s.setRoutine v).regs = s.regs := rfl
@[simp] theorem State.setRoutine_pc (s : State) (v : Option Routine) : (s.setRoutine v).pc = s.pc := rfl
@[simp] theorem State.setRoutine_cond (s : State) (v : Option Routine) : (s.setRoutine v).cond = s.cond := rfl
@[simp] theorem State.setRoutine_mem (s : State) (v : Option Routine) : (s.setRoutine v).mem = s.mem := rfl
@[simp] theorem State.setRoutine_status (s : State) (v : Option Routine) : (s.setRoutine v).status = s.status := rfl
@[simp] theorem State.setRoutine_inq (s : State) (v : Option Routine) : (s.setRoutine v).inq = s.inq := rfl
@[simp] theorem State.setRoutine_out (s : State) (v : Option Routine) : (s.setRoutine v).out = s.out := rfl
@[simp] theorem State.setRoutine_routine (s : State) (v : Option Routine) : (s.setRoutine v).routine = v := rfl
@[simp] theorem State.setRoutine_cfg (s : State) (v : Option Routine) : (s.setRoutine v).cfg = s.cfg := rfl

theorem State.reg_eq (s : State) (r : Reg) : s.reg r = s.regs[r.val] := rfl

@[simp] theorem State.reg_setReg (s : State) (r q : Reg) (v : Word) :
    (s.setReg r v).reg q = if q = r then v else s.reg q := by
  simp only [State.reg, State.setReg, Vector.getElem_set, Fin.ext_iff, eq_comm]

theorem State.cell_eq (s : State) (a : Word) : s.cell a = Memory.read s.mem a := rfl

@[simp] theorem State.cell_setReg (s : State) (a : Word) (r : Reg) (v : Word) : (s.setReg r v).cell a = s.cell a := rfl
@[simp] theorem State.reg_setPc (s : State) (q : Reg) (v : Word) : (s.setPc v).reg q = s.reg q := rfl
@[simp] theorem State.cell_setPc (s : State) (a : Word) (v : Word) : (s.setPc v).cell a = s.cell a := rfl
@[simp] theorem State.reg_setCond (s : State) (q : Reg) (v : Word) : (s.setCond v).reg q = s.reg q := rfl
@[simp] theorem State.cell_setCond (s : State) (a : Word) (v : Word) : (s.setCond v).cell a = s.cell a := rfl
@[simp] theorem State.reg_setMem (s : State) (q : Reg) (v : Memory) : (s.setMem v).reg q = s.reg q := rfl
@[simp] theorem State.reg_setStatus (s : State) (q : Reg) (v : Status) : (s.setStatus v).reg q = s.reg q := rfl
@[simp] theorem State.cell_setStatus (s : State) (a : Word) (v : Status) : (s.setStatus v).cell a = s.cell a := rfl
@[simp] theorem State.reg_setInq (s : State) (q : Reg) (v : List Word) : (s.setInq v).reg q = s.reg q := rfl
@[simp] theorem State.cell_setInq (s : State) (a : Word) (v : List Word) : (s.setInq v).cell a = s.cell a := rfl
@[simp] theorem State.reg_setOut (s : State) (q : Reg) (v : List Word) : (s.setOut v).reg q = s.reg q := rfl
@[simp] theorem State.cell_setOut (s : State) (a : Word) (v : List Word) : (s.setOut v).cell a = s.cell a := rfl
@[simp] theorem State.reg_setRoutine (s : State) (q : Reg) (v : Option Routine) : (s.setRoutine v).reg q = s.reg q := rfl
@[simp] theorem State.cell_setRoutine (s : State) (a : Word) (v : Option Routine) : (s.setRoutine v).cell a = s.cell a := rfl

@[simp] theorem State.cell_setMem (s : State) (a : Word) (v : Memory) : (s.setMem v).cell a = Memory.read v a := rfl

@[simp] theorem State.setCell_regs (s : State) (a v : Word) : (s.setCell a v).regs = s.regs := rfl
@[simp] theorem State.setCell_pc (s : State) (a v : Word) : (s.setCell a v).pc = s.pc := rfl
@[simp] theorem State.setCell_cond (s : State) (a v : Word) : (s.setCell a v).cond = s.cond := rfl
@[simp] theorem State.setCell_status (s : State) (a v : Word) : (s.setCell a v).status = s.status := rfl
@[simp] theorem State.setCell_inq (s : State) (a v : Word) : (s.setCell a v).inq = s.inq := rfl
@[simp] theorem State.setCell_out (s : State) (a v : Word) : (s.setCell a v).out = s.out := rfl
@[simp] theorem State.setCell_routine (s : State) (a v : Word) : (s.setCell a v).routine = s.routine := rfl
@[simp] theorem State.setCell_cfg (s : State) (a v : Word) : (s.setCell a v).cfg = s.cfg := rfl
@[simp] theorem State.reg_setCell (s : State) (q : Reg) (a v : Word) : (s.setCell a v).reg q = s.reg q := rfl

/-- Two states are equal when every field is, registers one by one. -/
theorem State.ext_reg {s t : State} (hr : ∀ r, s.reg r = t.reg r) (hp : s.pc = t.pc) (hc : s.cond = t.cond)
    (hm : s.mem = t.mem) (hs : s.status = t.status) (hq : s.inq = t.inq) (ho : s.out = t.out)
    (hn : s.routine = t.routine) (hg : s.cfg = t.cfg) : s = t := by
  have hregs : s.regs = t.regs := Vector.ext (fun i hi => hr ⟨i, hi⟩)
  cases s; cases t; simp_all

end Sys2Proof.Machine
end

