-- ==== Sys2Proof/Laws/Memory.lean ====
section
/-! SUPPORT. Memory as a list of cells: reading after writing, the canonical form, and what equal readings mean. -/

namespace Sys2Proof.Machine

@[simp] theorem Memory.read_nil (a : Word) : Memory.read [] a = unlistedWord := rfl

theorem Memory.read_insert_same (m : Memory) (a v : Word) (h : ∀ c ∈ m, c.1 ≠ a.toNat) :
    Memory.read (Memory.insert a.toNat v m) a = v := by
  induction m with
  | nil => simp [Memory.insert, Memory.read]
  | cons c m ih =>
    obtain ⟨b, u⟩ := c
    have hb : b ≠ a.toNat := h (b, u) (by simp)
    simp only [Memory.insert]
    split
    · simp [Memory.read]
    · simp only [Memory.read, hb, if_false]
      exact ih (fun c hc => h c (by simp [hc]))

theorem Memory.read_insert_other (m : Memory) (a b v : Word) (h : b ≠ a) :
    Memory.read (Memory.insert a.toNat v m) b = Memory.read m b := by
  have hne : a.toNat ≠ b.toNat := fun e => h (BitVec.eq_of_toNat_eq e.symm)
  induction m with
  | nil => simp [Memory.insert, Memory.read, hne]
  | cons c m ih =>
    obtain ⟨x, u⟩ := c
    simp only [Memory.insert]
    split
    · simp [Memory.read, hne]
    · simp only [Memory.read, ih]

theorem Memory.read_filter_same (m : Memory) (a : Word) :
    Memory.read (m.filter (fun c => c.1 != a.toNat)) a = unlistedWord := by
  induction m with
  | nil => rfl
  | cons c m ih =>
    obtain ⟨x, u⟩ := c
    by_cases hx : x = a.toNat
    · simp [hx, ih]
    · simp [hx, Memory.read, ih]

theorem Memory.read_filter_other (m : Memory) (a b : Word) (h : b ≠ a) :
    Memory.read (m.filter (fun c => c.1 != a.toNat)) b = Memory.read m b := by
  have hne : b.toNat ≠ a.toNat := fun e => h (BitVec.eq_of_toNat_eq e)
  induction m with
  | nil => rfl
  | cons c m ih =>
    obtain ⟨x, u⟩ := c
    by_cases hx : x = a.toNat
    · simp [hx, Memory.read, ih, Ne.symm hne]
    · simp [hx, Memory.read, ih]

/-- The read law of memory: a cell reads as the last word written to it. -/
theorem Memory.read_write_eq_ite (m : Memory) (a b v : Word) :
    Memory.read (Memory.write m a v) b = if b = a then v else Memory.read m b := by
  unfold Memory.write
  by_cases hb : b = a
  · subst hb
    by_cases hv : v = unlistedWord
    · simp [hv, Memory.read_filter_same]
    · simp only [hv, if_false, if_true]
      exact Memory.read_insert_same _ b v (fun c hc => by simpa using (List.mem_filter.1 hc).2)
  · by_cases hv : v = unlistedWord
    · simp [hv, hb, Memory.read_filter_other m a b hb]
    · simp only [hv, if_false, hb]
      rw [Memory.read_insert_other _ a b v hb, Memory.read_filter_other m a b hb]

theorem Memory.mem_insert {a : Nat} {v : Word} {m : Memory} {c : Nat × Word} (h : c ∈ Memory.insert a v m) :
    c = (a, v) ∨ c ∈ m := by
  induction m with
  | nil => simpa [Memory.insert] using h
  | cons d m ih =>
    obtain ⟨b, u⟩ := d
    simp only [Memory.insert] at h
    split at h
    · simpa using h
    · rcases List.mem_cons.1 h with h | h
      · exact .inr (by simp [h])
      · rcases ih h with h | h
        · exact .inl h
        · exact .inr (by simp [h])

theorem Memory.insert_pairwise {a : Nat} {v : Word} {m : Memory} (hp : m.Pairwise (fun x y => x.1 < y.1))
    (hn : ∀ c ∈ m, c.1 ≠ a) : (Memory.insert a v m).Pairwise (fun x y => x.1 < y.1) := by
  induction m with
  | nil => simp [Memory.insert]
  | cons d m ih =>
    obtain ⟨b, u⟩ := d
    obtain ⟨hd, hm⟩ := List.pairwise_cons.1 hp
    have hb : b ≠ a := hn (b, u) (by simp)
    simp only [Memory.insert]
    split
    · rename_i hab
      refine List.pairwise_cons.2 ⟨fun c hc => ?_, hp⟩
      rcases List.mem_cons.1 hc with rfl | hc
      · exact hab
      · exact Nat.lt_trans hab (hd c hc)
    · rename_i hab
      refine List.pairwise_cons.2 ⟨fun c hc => ?_, ih hm (fun c hc => hn c (by simp [hc]))⟩
      rcases Memory.mem_insert hc with rfl | hc
      · exact Nat.lt_of_le_of_ne (Nat.le_of_not_lt hab) hb
      · exact hd c hc

/-- A write keeps the canonical form. -/
theorem Memory.wf_write {m : Memory} (h : Memory.wf m) (a v : Word) : Memory.wf (Memory.write m a v) := by
  obtain ⟨hp, hc⟩ := h
  have hpf : (m.filter (fun c => c.1 != a.toNat)).Pairwise (fun x y => x.1 < y.1) := hp.filter _
  have hcf : ∀ c ∈ m.filter (fun c => c.1 != a.toNat), c.1 < 65536 ∧ c.2 ≠ unlistedWord :=
    fun c h => hc c (List.mem_filter.1 h).1
  unfold Memory.write
  by_cases hv : v = unlistedWord
  · simp only [hv, if_true]
    exact ⟨hpf, hcf⟩
  · simp only [hv, if_false]
    refine ⟨Memory.insert_pairwise hpf (fun c h => by simpa using (List.mem_filter.1 h).2), fun c h => ?_⟩
    rcases Memory.mem_insert h with rfl | h
    · exact ⟨a.isLt, hv⟩
    · exact hcf c h

theorem Memory.wf_nil : Memory.wf [] := by decide

theorem Memory.read_eq_unlisted {m : Memory} {a : Word} (h : ∀ c ∈ m, c.1 ≠ a.toNat) :
    Memory.read m a = unlistedWord := by
  induction m with
  | nil => rfl
  | cons c m ih =>
    obtain ⟨b, u⟩ := c
    have hb : b ≠ a.toNat := h (b, u) (by simp)
    simp only [Memory.read, hb, if_false]
    exact ih (fun c hc => h c (by simp [hc]))

theorem Memory.read_head {a : Nat} (ha : a < 65536) (v : Word) (m : Memory) :
    Memory.read ((a, v) :: m) (BitVec.ofNat 16 a) = v := by
  have : a = (BitVec.ofNat 16 a).toNat := by simp; omega
  simp [Memory.read, ← this]

/-- The canonical form is canonical: two memories in it whose cells all read the same are the same list. -/
theorem Memory.eq_of_read_eq {m n : Memory} (hm : Memory.wf m) (hn : Memory.wf n)
    (h : ∀ a, Memory.read m a = Memory.read n a) : m = n := by
  induction m generalizing n with
  | nil =>
    cases n with
    | nil => rfl
    | cons d n =>
      obtain ⟨b, u⟩ := d
      obtain ⟨hb, hu⟩ := hn.2 (b, u) (by simp)
      have := h (BitVec.ofNat 16 b)
      rw [Memory.read_head hb] at this
      exact absurd this.symm hu
  | cons c m ih =>
    obtain ⟨a, v⟩ := c
    obtain ⟨ha, hv⟩ := hm.2 (a, v) (by simp)
    obtain ⟨ham, hpm⟩ := List.pairwise_cons.1 hm.1
    have haw : (BitVec.ofNat 16 a).toNat = a := by simp; omega
    cases n with
    | nil =>
      have := h (BitVec.ofNat 16 a)
      rw [Memory.read_head ha] at this
      exact absurd this hv
    | cons d n =>
      obtain ⟨b, u⟩ := d
      obtain ⟨hb, hu⟩ := hn.2 (b, u) (by simp)
      obtain ⟨hbn, hpn⟩ := List.pairwise_cons.1 hn.1
      have hbw : (BitVec.ofNat 16 b).toNat = b := by simp; omega
      have hab : a = b := by
        rcases Nat.lt_trichotomy a b with hlt | heq | hgt
        · have hr := h (BitVec.ofNat 16 a)
          rw [Memory.read_head ha, Memory.read_eq_unlisted (m := (b, u) :: n)] at hr
          · exact absurd hr hv
          · intro c hc
            rw [haw]
            rcases List.mem_cons.1 hc with rfl | hc
            · exact Nat.ne_of_gt hlt
            · exact Nat.ne_of_gt (Nat.lt_trans hlt (hbn c hc))
        · exact heq
        · have hr := h (BitVec.ofNat 16 b)
          rw [Memory.read_head hb, Memory.read_eq_unlisted (m := (a, v) :: m)] at hr
          · exact absurd hr.symm hu
          · intro c hc
            rw [hbw]
            rcases List.mem_cons.1 hc with rfl | hc
            · exact Nat.ne_of_gt hgt
            · exact Nat.ne_of_gt (Nat.lt_trans hgt (ham c hc))
      subst hab
      have hvu : v = u := by
        have := h (BitVec.ofNat 16 a)
        rwa [Memory.read_head ha, Memory.read_head ha] at this
      subst hvu
      congr 1
      refine ih ⟨hpm, fun c hc => hm.2 c (by simp [hc])⟩ ⟨hpn, fun c hc => hn.2 c (by simp [hc])⟩ (fun x => ?_)
      by_cases hx : a = x.toNat
      · rw [Memory.read_eq_unlisted (fun c hc => hx ▸ Nat.ne_of_gt (ham c hc)),
          Memory.read_eq_unlisted (fun c hc => hx ▸ Nat.ne_of_gt (hbn c hc))]
      · simpa [Memory.read, hx] using h x

@[simp] theorem State.cell_setCell (s : State) (a b v : Word) :
    (s.setCell a v).cell b = if b = a then v else s.cell b :=
  Memory.read_write_eq_ite s.mem a b v

theorem State.setCell_wf {s : State} (h : Memory.wf s.mem) (a v : Word) : Memory.wf (s.setCell a v).mem :=
  Memory.wf_write h a v

end Sys2Proof.Machine
end

