-- ==== Sys2Proof/Laws/Ops.lean ====
section
/-! SUPPORT. One lemma per shared operation that says all it does. -/

namespace Sys2Proof.Machine

/-! The keyboard. -/

theorem readKey_nil {s : State} (h : s.inq = []) : readKey s = none := by simp [readKey, h]

theorem readKey_cons {s : State} {k : Word} {ks : List Word} (h : s.inq = k :: ks) :
    readKey s = some (k, s.setInq ks) := by simp [readKey, h]

/-- `ReadKey()` would block exactly where `KeyPending()` answers false (R37). -/
theorem readKey_isSome (s : State) : (readKey s).isSome = keyPending s := by
  cases h : s.inq <;> simp [readKey, keyPending, h]

theorem pollKeyboard_nil {s : State} (h : s.inq = []) : pollKeyboard s = s.setCell kbsr 0 := by
  simp [pollKeyboard, readKey_nil h]

theorem pollKeyboard_cons {s : State} {k : Word} {ks : List Word} (h : s.inq = k :: ks) :
    pollKeyboard s = ((s.setInq ks).setCell kbsr kbsrReady).setCell kbdr k := by
  simp [pollKeyboard, readKey_cons h]

/-- The poll touches cells and the key queue only. -/
theorem pollKeyboard_frame (s : State) :
    (pollKeyboard s).regs = s.regs ∧ (pollKeyboard s).pc = s.pc ∧ (pollKeyboard s).cond = s.cond ∧
      (pollKeyboard s).status = s.status ∧ (pollKeyboard s).out = s.out ∧ (pollKeyboard s).routine = s.routine ∧
      (pollKeyboard s).cfg = s.cfg := by
  cases h : s.inq with
  | nil => simp [pollKeyboard_nil h]
  | cons k ks => simp [pollKeyboard_cons h]

/-! Reading memory. -/

theorem memRead_plain {a : Word} {s : State} (h : a ≠ kbsr) : memRead a s = (s.cell a, s) := by
  simp [memRead, h]

theorem memRead_kbsr (s : State) : memRead kbsr s = ((pollKeyboard s).cell kbsr, pollKeyboard s) := by
  simp [memRead]

theorem memRead_kbsr_nil {s : State} (h : s.inq = []) : memRead kbsr s = (0, s.setCell kbsr 0) := by
  simp [memRead_kbsr, pollKeyboard_nil h]

theorem memRead_kbsr_cons {s : State} {k : Word} {ks : List Word} (h : s.inq = k :: ks) :
    memRead kbsr s = (kbsrReady, ((s.setInq ks).setCell kbsr kbsrReady).setCell kbdr k) := by
  have hne : kbsr ≠ kbdr := by decide
  rw [memRead_kbsr, pollKeyboard_cons h]
  simp [hne]

/-- A read leaves everything but cells and the key queue alone. -/
theorem memRead_frame (a : Word) (s : State) :
    (memRead a s).2.regs = s.regs ∧ (memRead a s).2.pc = s.pc ∧ (memRead a s).2.cond = s.cond ∧
      (memRead a s).2.status = s.status ∧ (memRead a s).2.out = s.out ∧ (memRead a s).2.routine = s.routine ∧
      (memRead a s).2.cfg = s.cfg := by
  by_cases h : a = kbsr
  · subst h
    rw [memRead_kbsr]
    exact pollKeyboard_frame s
  · simp [memRead_plain h]

@[simp] theorem memRead_regs (a : Word) (s : State) : (memRead a s).2.regs = s.regs := (memRead_frame a s).1
@[simp] theorem memRead_reg (a : Word) (s : State) (r : Reg) : (memRead a s).2.reg r = s.reg r := by
  simp [State.reg]
@[simp] theorem memRead_pc (a : Word) (s : State) : (memRead a s).2.pc = s.pc := (memRead_frame a s).2.1
@[simp] theorem memRead_cond (a : Word) (s : State) : (memRead a s).2.cond = s.cond := (memRead_frame a s).2.2.1
@[simp] theorem memRead_status (a : Word) (s : State) : (memRead a s).2.status = s.status :=
  (memRead_frame a s).2.2.2.1
@[simp] theorem memRead_out (a : Word) (s : State) : (memRead a s).2.out = s.out := (memRead_frame a s).2.2.2.2.1
@[simp] theorem memRead_routine (a : Word) (s : State) : (memRead a s).2.routine = s.routine :=
  (memRead_frame a s).2.2.2.2.2.1
@[simp] theorem memRead_cfg (a : Word) (s : State) : (memRead a s).2.cfg = s.cfg := (memRead_frame a s).2.2.2.2.2.2

/-- The key queue after a read: as it was, or without its head. -/
theorem memRead_inq (a : Word) (s : State) :
    (memRead a s).2.inq = s.inq ∨ ∃ k, s.inq = k :: (memRead a s).2.inq := by
  by_cases h : a = kbsr
  · subst h
    cases hq : s.inq with
    | nil => exact .inl (by simp [memRead_kbsr_nil hq, hq])
    | cons k ks => exact .inr ⟨k, by simp [memRead_kbsr_cons hq]⟩
  · exact .inl (by simp [memRead_plain h])

/-- A read keeps the canonical form of memory. -/
theorem memRead_wf {s : State} (h : Memory.wf s.mem) (a : Word) : Memory.wf (memRead a s).2.mem := by
  by_cases ha : a = kbsr
  · subst ha
    cases hq : s.inq with
    | nil => rw [memRead_kbsr_nil hq]; exact State.setCell_wf h _ _
    | cons k ks =>
      rw [memRead_kbsr_cons hq]
      exact State.setCell_wf (State.setCell_wf (s := s.setInq ks) h _ _) _ _
  · rw [memRead_plain ha]; exact h

/-! Fetch. -/

theorem fetch_plain {s : State} (h : s.pc ≠ kbsr) : fetch s = (s.cell s.pc, s.setPc (s.pc + 1)) := by
  simp [fetch, memRead_plain h]

theorem fetch_eq (s : State) : fetch s = ((memRead s.pc s).1, (memRead s.pc s).2.setPc (s.pc + 1)) := by
  simp [fetch]

/-! Flags and write-back. -/

theorem condOf_cases (v : Word) :
    (v = 0 ∧ condOf v = condZro) ∨ (v ≠ 0 ∧ v.getLsbD 15 = true ∧ condOf v = condNeg) ∨
      (v ≠ 0 ∧ v.getLsbD 15 = false ∧ condOf v = condPos) := by
  unfold condOf
  by_cases h : v = 0
  · exact .inl ⟨h, if_pos h⟩
  · cases hb : v.getLsbD 15
    · exact .inr (.inr ⟨h, rfl, by rw [if_neg h]; rfl⟩)
    · exact .inr (.inl ⟨h, rfl, by rw [if_neg h]; rfl⟩)

theorem condFor_condOf (v : Word) : CondFor v (condOf v) := by
  obtain ⟨h, e⟩ | ⟨h, hb, e⟩ | ⟨h, hb, e⟩ := condOf_cases v
  · exact ⟨fun _ => e, fun h' => absurd h h', fun h' => absurd h h'⟩
  · exact ⟨fun h' => absurd h' h, fun _ _ => e, fun _ hb' => absurd (hb.symm.trans hb') (by decide)⟩
  · exact ⟨fun h' => absurd h' h, fun _ hb' => absurd (hb.symm.trans hb') (by decide), fun _ _ => e⟩

@[simp] theorem setCC_reg (v : Word) (s : State) (r : Reg) : (setCC v s).reg r = s.reg r := rfl
@[simp] theorem writeBack_reg (dr : Reg) (v : Word) (s : State) (r : Reg) :
    (writeBack dr v s).reg r = if r = dr then v else s.reg r := by simp [writeBack]
@[simp] theorem writeBack_pc (dr : Reg) (v : Word) (s : State) : (writeBack dr v s).pc = s.pc := rfl
@[simp] theorem writeBack_cond (dr : Reg) (v : Word) (s : State) : (writeBack dr v s).cond = condOf v := rfl
@[simp] theorem writeBack_mem (dr : Reg) (v : Word) (s : State) : (writeBack dr v s).mem = s.mem := rfl
@[simp] theorem writeBack_cell (dr : Reg) (v : Word) (s : State) (a : Word) : (writeBack dr v s).cell a = s.cell a := rfl
@[simp] theorem writeBack_status (dr : Reg) (v : Word) (s : State) : (writeBack dr v s).status = s.status := rfl
@[simp] theorem writeBack_inq (dr : Reg) (v : Word) (s : State) : (writeBack dr v s).inq = s.inq := rfl
@[simp] theorem writeBack_out (dr : Reg) (v : Word) (s : State) : (writeBack dr v s).out = s.out := rfl
@[simp] theorem writeBack_routine (dr : Reg) (v : Word) (s : State) : (writeBack dr v s).routine = s.routine := rfl
@[simp] theorem writeBack_cfg (dr : Reg) (v : Word) (s : State) : (writeBack dr v s).cfg = s.cfg := rfl

/-- A load is a read and a write-back of what it returned. -/
theorem loadFrom_eq (dr : Reg) (a : Word) (s : State) :
    loadFrom dr a s = writeBack dr (memRead a s).1 (memRead a s).2 := rfl

theorem execLdi_eq (dr : Reg) (off9 : BitVec 9) (s : State) :
    execLdi dr off9 s =
      .next (loadFrom dr (memRead (pcRel9 s off9) s).1 (memRead (pcRel9 s off9) s).2) := rfl

/-! Output and the trap routines. -/

@[simp] theorem putChar_out (c : Word) (s : State) : (putChar c s).out = s.out ++ [c] := rfl
@[simp] theorem putChar_reg (c : Word) (s : State) (r : Reg) : (putChar c s).reg r = s.reg r := rfl
@[simp] theorem putChar_cell (c : Word) (s : State) (a : Word) : (putChar c s).cell a = s.cell a := rfl
@[simp] theorem putChar_inq (c : Word) (s : State) : (putChar c s).inq = s.inq := rfl
@[simp] theorem putChar_mem (c : Word) (s : State) : (putChar c s).mem = s.mem := rfl
@[simp] theorem putChar_regs (c : Word) (s : State) : (putChar c s).regs = s.regs := rfl
@[simp] theorem putChar_pc (c : Word) (s : State) : (putChar c s).pc = s.pc := rfl
@[simp] theorem putChar_cond (c : Word) (s : State) : (putChar c s).cond = s.cond := rfl
@[simp] theorem putChar_status (c : Word) (s : State) : (putChar c s).status = s.status := rfl
@[simp] theorem putChar_routine (c : Word) (s : State) : (putChar c s).routine = s.routine := rfl
@[simp] theorem putChar_cfg (c : Word) (s : State) : (putChar c s).cfg = s.cfg := rfl

theorem getcRoutine_nil {s : State} (h : s.inq = []) : getcRoutine s = s.setRoutine (some .getc) := by
  simp [getcRoutine, readKey_nil h]

theorem getcRoutine_cons {s : State} {k : Word} {ks : List Word} (h : s.inq = k :: ks) :
    getcRoutine s = ((s.setInq ks).setReg 0 k).setRoutine none := by
  simp [getcRoutine, readKey_cons h]

/-- The two things a GETC can do. -/
theorem getcRoutine_cases (s : State) :
    (s.inq = [] ∧ getcRoutine s = s.setRoutine (some .getc)) ∨
    (∃ k ks, s.inq = k :: ks ∧ getcRoutine s = ((s.setInq ks).setReg 0 k).setRoutine none) := by
  cases h : s.inq with
  | nil => exact .inl ⟨rfl, getcRoutine_nil h⟩
  | cons k ks => exact .inr ⟨k, ks, rfl, getcRoutine_cons h⟩

/-- What a GETC does to all but the key queue, R0 and the mark of being unfinished: nothing. -/
theorem getcRoutine_frame (s : State) :
    SameRegsBut [0] s (getcRoutine s) ∧ (getcRoutine s).pc = s.pc ∧ (getcRoutine s).cond = s.cond ∧
      (getcRoutine s).mem = s.mem ∧ (getcRoutine s).status = s.status ∧ (getcRoutine s).out = s.out ∧
      (getcRoutine s).cfg = s.cfg := by
  cases h : s.inq with
  | nil => simp [getcRoutine_nil h, SameRegsBut]
  | cons k ks => simp +contextual [getcRoutine_cons h, SameRegsBut]

theorem putsPass_stop {a : Word} {s : State} (h : (memRead a s).1 = 0) :
    putsPass a s = (memRead a s).2.setRoutine none := if_pos h

theorem putsPass_emit {a : Word} {s : State} (h : (memRead a s).1 ≠ 0) :
    putsPass a s = (putChar (memRead a s).1 (memRead a s).2).setRoutine (some (.puts (a + 1))) := if_neg h

/-- The two things a pass of PUTS can do. -/
theorem putsPass_cases (a : Word) (s : State) :
    ((memRead a s).1 = 0 ∧ putsPass a s = (memRead a s).2.setRoutine none) ∨
    ((memRead a s).1 ≠ 0 ∧
      putsPass a s = (putChar (memRead a s).1 (memRead a s).2).setRoutine (some (.puts (a + 1)))) := by
  by_cases h : (memRead a s).1 = 0
  · exact .inl ⟨h, putsPass_stop h⟩
  · exact .inr ⟨h, putsPass_emit h⟩

/-- A pass of PUTS is a read but for output and the mark of being unfinished. -/
theorem putsPass_frame (a : Word) (s : State) :
    (putsPass a s).regs = s.regs ∧ (putsPass a s).pc = s.pc ∧ (putsPass a s).cond = s.cond ∧
      (putsPass a s).status = s.status ∧ (putsPass a s).cfg = s.cfg ∧ (putsPass a s).mem = (memRead a s).2.mem ∧
      (putsPass a s).inq = (memRead a s).2.inq := by
  by_cases h : (memRead a s).1 = 0
  · simp [putsPass_stop h]
  · simp [putsPass_emit h]

theorem haltRoutine_nil (s : State) : haltRoutine [] s = (s.setRoutine none).setStatus .halted := rfl

theorem haltRoutine_cons (c : Word) (rest : List Word) (s : State) :
    haltRoutine (c :: rest) s = (putChar c s).setRoutine (some (.halt rest)) := rfl

/-- HALT touches output, status and the mark of being unfinished only. -/
theorem haltRoutine_frame (cs : List Word) (s : State) :
    (haltRoutine cs s).regs = s.regs ∧ (haltRoutine cs s).pc = s.pc ∧ (haltRoutine cs s).cond = s.cond ∧
      (haltRoutine cs s).mem = s.mem ∧ (haltRoutine cs s).inq = s.inq ∧ (haltRoutine cs s).cfg = s.cfg := by
  cases cs <;> exact ⟨rfl, rfl, rfl, rfl, rfl, rfl⟩

/-! The step. -/

/-- All that a step can do. -/
theorem step_cases (s : State) :
    (s.status = .halted ∧ step s = .fault .stepAfterHalt) ∨
    (∃ why, s.status = .faulted why ∧ step s = .fault (.stepAfterFault why)) ∨
    (∃ r, s.status = .running ∧ s.routine = some r ∧ step s = .next (resumeRoutine r s)) ∨
    (s.status = .running ∧ s.routine = none ∧ step s = exec (decode (fetch s).1) (fetch s).2) := by
  cases hs : s.status with
  | halted => exact .inl ⟨rfl, by simp [step, hs]⟩
  | faulted why => exact .inr (.inl ⟨why, rfl, by simp [step, hs]⟩)
  | running =>
    cases hr : s.routine with
    | none => exact .inr (.inr (.inr ⟨rfl, rfl, by simp [step, hs, hr]⟩))
    | some r => exact .inr (.inr (.inl ⟨r, rfl, rfl, by simp [step, hs, hr]⟩))

/-- One more step of a run. -/
theorem run_succ {s t : State} (h : step s = .next t) (k : Nat) : core.run (k + 1) s = core.run k t := by
  have h' : core.step s = .next t := h
  simp only [Host.Core.run, h']

theorem run_zero (s : State) : core.run 0 s = .next s := rfl

theorem step_unfinished {s : State} {r : Routine} (hs : s.status = .running) (hr : s.routine = some r) :
    step s = .next (resumeRoutine r s) := by
  simp [step, hs, hr]

theorem step_ready {s : State} (h : Ready s) : step s = exec (decode (fetch s).1) (fetch s).2 := by
  simp [step, h.1, h.2]

end Sys2Proof.Machine
end

