-- ==== Sys2Proof/Laws/PerInstr.lean ====
section
/-! SUPPORT. Families of statements about every instruction, one lemma per constructor. -/

namespace Sys2Proof.Laws.EncodedOpcode

/-- The word of an instruction has the opcode of its row in spec/opcode_table.json. -/
def Statement (i : Instr) : Prop := opcodeOf (encode i) = opcodeOf i.rowMatch

theorem br (nzp : BitVec 3) (off9 : BitVec 9) : Statement (.br nzp off9) := by
  have := nzp.isLt; have := off9.isLt
  refine (opcodeOf_eq (k := 0) ?_).trans (by simp only [Instr.rowMatch]; decide)
  rw [encode_br_toNat]
  show _ = 0
  omega

theorem addReg (dr sr1 sr2 : Reg) : Statement (.addReg dr sr1 sr2) := by
  have := dr.isLt; have := sr1.isLt; have := sr2.isLt
  refine (opcodeOf_eq (k := 1) ?_).trans (by simp only [Instr.rowMatch]; decide)
  rw [encode_addReg_toNat]
  show _ = 1
  omega

theorem addImm (dr sr1 : Reg) (imm5 : BitVec 5) : Statement (.addImm dr sr1 imm5) := by
  have := dr.isLt; have := sr1.isLt; have := imm5.isLt
  refine (opcodeOf_eq (k := 1) ?_).trans (by simp only [Instr.rowMatch]; decide)
  rw [encode_addImm_toNat]
  show _ = 1
  omega

theorem ld (dr : Reg) (off9 : BitVec 9) : Statement (.ld dr off9) := by
  have := dr.isLt; have := off9.isLt
  refine (opcodeOf_eq (k := 2) ?_).trans (by simp only [Instr.rowMatch]; decide)
  rw [encode_ld_toNat]
  show _ = 2
  omega

theorem st (sr : Reg) (off9 : BitVec 9) : Statement (.st sr off9) := by
  have := sr.isLt; have := off9.isLt
  refine (opcodeOf_eq (k := 3) ?_).trans (by simp only [Instr.rowMatch]; decide)
  rw [encode_st_toNat]
  show _ = 3
  omega

theorem jsrr (baseR : Reg) : Statement (.jsrr baseR) := by
  have := baseR.isLt
  refine (opcodeOf_eq (k := 4) ?_).trans (by simp only [Instr.rowMatch]; decide)
  rw [encode_jsrr_toNat]
  show _ = 4
  omega

theorem jsr (off11 : BitVec 11) : Statement (.jsr off11) := by
  have := off11.isLt
  refine (opcodeOf_eq (k := 4) ?_).trans (by simp only [Instr.rowMatch]; decide)
  rw [encode_jsr_toNat]
  show _ = 4
  omega

theorem andReg (dr sr1 sr2 : Reg) : Statement (.andReg dr sr1 sr2) := by
  have := dr.isLt; have := sr1.isLt; have := sr2.isLt
  refine (opcodeOf_eq (k := 5) ?_).trans (by simp only [Instr.rowMatch]; decide)
  rw [encode_andReg_toNat]
  show _ = 5
  omega

theorem andImm (dr sr1 : Reg) (imm5 : BitVec 5) : Statement (.andImm dr sr1 imm5) := by
  have := dr.isLt; have := sr1.isLt; have := imm5.isLt
  refine (opcodeOf_eq (k := 5) ?_).trans (by simp only [Instr.rowMatch]; decide)
  rw [encode_andImm_toNat]
  show _ = 5
  omega

theorem ldr (dr baseR : Reg) (off6 : BitVec 6) : Statement (.ldr dr baseR off6) := by
  have := dr.isLt; have := baseR.isLt; have := off6.isLt
  refine (opcodeOf_eq (k := 6) ?_).trans (by simp only [Instr.rowMatch]; decide)
  rw [encode_ldr_toNat]
  show _ = 6
  omega

theorem str (sr baseR : Reg) (off6 : BitVec 6) : Statement (.str sr baseR off6) := by
  have := sr.isLt; have := baseR.isLt; have := off6.isLt
  refine (opcodeOf_eq (k := 7) ?_).trans (by simp only [Instr.rowMatch]; decide)
  rw [encode_str_toNat]
  show _ = 7
  omega

theorem rti : Statement .rti := by unfold Statement; decide

theorem notReg (dr sr : Reg) : Statement (.notReg dr sr) := by
  have := dr.isLt; have := sr.isLt
  refine (opcodeOf_eq (k := 9) ?_).trans (by simp only [Instr.rowMatch]; decide)
  rw [encode_notReg_toNat]
  show _ = 9
  omega

theorem ldi (dr : Reg) (off9 : BitVec 9) : Statement (.ldi dr off9) := by
  have := dr.isLt; have := off9.isLt
  refine (opcodeOf_eq (k := 10) ?_).trans (by simp only [Instr.rowMatch]; decide)
  rw [encode_ldi_toNat]
  show _ = 10
  omega

theorem sti (sr : Reg) (off9 : BitVec 9) : Statement (.sti sr off9) := by
  have := sr.isLt; have := off9.isLt
  refine (opcodeOf_eq (k := 11) ?_).trans (by simp only [Instr.rowMatch]; decide)
  rw [encode_sti_toNat]
  show _ = 11
  omega

theorem jmp (baseR : Reg) : Statement (.jmp baseR) := by
  have := baseR.isLt
  refine (opcodeOf_eq (k := 12) ?_).trans (by simp only [Instr.rowMatch]; decide)
  rw [encode_jmp_toNat]
  show _ = 12
  omega

theorem res : Statement .res := by unfold Statement; decide

theorem lea (dr : Reg) (off9 : BitVec 9) : Statement (.lea dr off9) := by
  have := dr.isLt; have := off9.isLt
  refine (opcodeOf_eq (k := 14) ?_).trans (by simp only [Instr.rowMatch]; decide)
  rw [encode_lea_toNat]
  show _ = 14
  omega

theorem getc : Statement .getc := by unfold Statement; decide

theorem outChar : Statement .outChar := by unfold Statement; decide

theorem puts : Statement .puts := by unfold Statement; decide

theorem inChar : Statement .inChar := by unfold Statement; decide

theorem putsp : Statement .putsp := by unfold Statement; decide

theorem halt : Statement .halt := by unfold Statement; decide

theorem trap (v : BitVec 8) : Statement (.trap v) := by
  have := v.isLt
  refine (opcodeOf_eq (k := 15) ?_).trans (by simp only [Instr.rowMatch]; decide)
  rw [encode_trap_toNat]
  show _ = 15
  omega

end Sys2Proof.Laws.EncodedOpcode
end

