-- ==== Sys2Proof/Tests/Slice0.lean ====
section
/-! SUPPORT. Tests: words and results from 95_test_vectors.md (cited by row), a smoke test of WellFormed, and a state and
operands that meet the hypotheses of each obligation that has any. -/

namespace Sys2Proof.Tests

open Sys2Proof.Machine

/-! ## Helpers -/

/-- Reset with some cells filled. -/
def boot (cells : List (Word × Word)) : State := cells.foldl (fun s c => s.setCell c.1 c.2) State.reset

/-- Reset with some registers set. -/
def withRegs (rs : List (Reg × Word)) (s : State) : State := rs.foldl (fun t r => t.setReg r.1 r.2) s

/-- A property of the state after one step; false if there is none. -/
def afterStep (s : State) (p : State → Bool) : Bool :=
  match step s with
  | .next t => p t
  | .fault _ => false
  | .refused _ => false

/-- A property of the state after `n` steps; false if there is none. -/
def afterSteps : Nat → State → (State → Bool) → Bool
  | 0, s, p => p s
  | n + 1, s, p => afterStep s (fun t => afterSteps n t p)

/-! ## WellFormed: the one check there is, with an ill-formed term at each end of the named vectors -/

theorem test_wf_trap_below : Instr.wf (.trap 0x1F) = true := by decide
theorem test_illformed_trap_first : Instr.wf (.trap 0x20) = false := by decide
theorem test_illformed_trap_last : Instr.wf (.trap 0x25) = false := by decide
theorem test_wf_trap_above : Instr.wf (.trap 0x26) = true := by decide

/-! ## Decoding, a word for every constructor, written from the pattern strings of R82 -/

theorem test_decode_br : decode 0b0000101111111100 = .br 0b101 0b111111100 := by decide
theorem test_decode_addReg : decode 0b0001010000000001 = .addReg 2 0 1 := by decide
theorem test_decode_addReg_spare : decode 0b0001010000011001 = .addReg 2 0 1 := by decide
theorem test_decode_addImm : decode 0b0001001001111111 = .addImm 1 1 0b11111 := by decide
theorem test_decode_ld : decode 0b0010001000000111 = .ld 1 0b000000111 := by decide
theorem test_decode_st : decode 0b0011001000000110 = .st 1 0b000000110 := by decide
theorem test_decode_jsrr : decode 0b0100011010111111 = .jsrr 2 := by decide
theorem test_decode_jsr : decode 0b0100110000000000 = .jsr 0b10000000000 := by decide
theorem test_decode_andReg : decode 0b0101011001000010 = .andReg 3 1 2 := by decide
theorem test_decode_andImm : decode 0b0101001010110000 = .andImm 1 2 0b10000 := by decide
theorem test_decode_ldr : decode 0b0110001010111111 = .ldr 1 2 0b111111 := by decide
theorem test_decode_str : decode 0b0111001010000001 = .str 1 2 0b000001 := by decide
theorem test_decode_rti : decode 0b1000101010111100 = .rti := by decide
theorem test_decode_not : decode 0b1001010011000000 = .notReg 2 3 := by decide
theorem test_decode_ldi : decode 0b1010010000000110 = .ldi 2 0b000000110 := by decide
theorem test_decode_sti : decode 0b1011111111111111 = .sti 7 0b111111111 := by decide
theorem test_decode_jmp : decode 0b1100111010111111 = .jmp 2 := by decide
theorem test_decode_res : decode 0b1101111111111111 = .res := by decide
theorem test_decode_lea : decode 0b1110011100000000 = .lea 3 0b100000000 := by decide
theorem test_decode_getc : decode 0b1111000000100000 = .getc := by decide
theorem test_decode_out_spare : decode 0b1111111100100001 = .outChar := by decide
theorem test_decode_puts : decode 0b1111000000100010 = .puts := by decide
theorem test_decode_in : decode 0b1111000000100011 = .inChar := by decide
theorem test_decode_putsp : decode 0b1111000000100100 = .putsp := by decide
theorem test_decode_halt : decode 0b1111000000100101 = .halt := by decide
theorem test_decode_trap_above : decode 0b1111000000100110 = .trap 0x26 := by decide
theorem test_decode_table_word : decodeTableWord 16 0xF021 = some .outChar := by decide
theorem test_decode_table_too_wide : decodeTableWord 16 0x10000 = none := by decide
theorem test_encode_ret : encode (.jmp 7) = 0xC1C0 := by decide
theorem test_encode_not : encode (.notReg 1 1) = 0x927F := by decide

/-! ## One step -/

/-- A1. -/
theorem test_add_overflow_sets_neg :
    afterStep (withRegs [(0, 0x7FFF), (1, 1)] (boot [(0x3000, 0x1401)]))
      (fun t => t.reg 2 = 0x8000 ∧ t.cond = 4 ∧ t.pc = 0x3001) = true := by decide
/-- A2. -/
theorem test_add_carry_dropped :
    afterStep (withRegs [(0, 0xFFFF), (1, 1)] (boot [(0x3000, 0x1401)]))
      (fun t => t.reg 2 = 0 ∧ t.cond = 2) = true := by decide
/-- A9. -/
theorem test_add_imm_least :
    afterStep (withRegs [(0, 0x0010)] (boot [(0x3000, 0x1230)])) (fun t => t.reg 1 = 0 ∧ t.cond = 2) = true := by decide
/-- A12. -/
theorem test_and_reg :
    afterStep (withRegs [(1, 0xFF0F), (2, 0x0FF0)] (boot [(0x3000, 0x5642)]))
      (fun t => t.reg 3 = 0x0F00 ∧ t.cond = 1) = true := by decide
/-- A15. -/
theorem test_and_imm_sign_extends :
    afterStep (withRegs [(2, 0x1234)] (boot [(0x3000, 0x52B0)])) (fun t => t.reg 1 = 0x1230 ∧ t.cond = 1) = true := by
  decide
/-- A18. -/
theorem test_not :
    afterStep (withRegs [(1, 0x0005)] (boot [(0x3000, 0x927F)])) (fun t => t.reg 1 = 0xFFFA ∧ t.cond = 4) = true := by
  decide
/-- B5. -/
theorem test_br_not_taken_at_reset : afterStep (boot [(0x3000, 0x0E05)]) (fun t => t.pc = 0x3001) = true := by decide
/-- B7. -/
theorem test_br_taken_backward :
    afterStep ((boot [(0x3000, 0x0BFC)]).setCond 1) (fun t => t.pc = 0x2FFD) = true := by decide
/-- J2. -/
theorem test_ret : afterStep (withRegs [(7, 0x3002)] (boot [(0x3000, 0xC1C0)])) (fun t => t.pc = 0x3002) = true := by
  decide
/-- K5. -/
theorem test_jsr_largest_backward :
    afterStep (boot [(0x3000, 0x4C00)]) (fun t => t.reg 7 = 0x3001 ∧ t.pc = 0x2C01) = true := by decide
/-- K7. -/
theorem test_jsrr_r7 :
    afterStep (withRegs [(7, 0x1234)] (boot [(0x3000, 0x41C0)])) (fun t => t.reg 7 = 0x3001 ∧ t.pc = 0x3001) = true := by
  decide
/-- L3. -/
theorem test_ld_wraps :
    afterStep ((boot [(0xFFFF, 0x2200), (0, 0xABCD)]).setPc 0xFFFF)
      (fun t => t.reg 1 = 0xABCD ∧ t.cond = 4 ∧ t.pc = 0) = true := by decide
/-- L8. -/
theorem test_ldi_polls :
    afterStep ((boot [(0x3000, 0xA001), (0x3002, 0xFE00)]).setInq [0x61, 0x62])
      (fun t => t.reg 0 = 0x8000 ∧ t.cell 0xFE00 = 0x8000 ∧ t.cell 0xFE02 = 0x61 ∧ t.inq = [0x62]) = true := by decide
/-- L7. -/
theorem test_ldi_no_key :
    afterStep (boot [(0x3000, 0xA001), (0x3002, 0xFE00), (0xFE00, 0x1234)])
      (fun t => t.reg 0 = 0 ∧ t.cond = 2 ∧ t.cell 0xFE00 = 0) = true := by decide
/-- L10. -/
theorem test_ldr_base_is_dest :
    afterStep (withRegs [(1, 0x4000)] (boot [(0x3000, 0x6240), (0x4000, 0x1234)])) (fun t => t.reg 1 = 0x1234) = true := by
  decide
/-- L17. -/
theorem test_lea_wraps_to_zero :
    afterStep ((boot [(0xFFFF, 0xE000)]).setPc 0xFFFF) (fun t => t.reg 0 = 0 ∧ t.cond = 2 ∧ t.pc = 0) = true := by decide
/-- T6. -/
theorem test_str_to_kbsr_is_plain :
    afterStep ((withRegs [(0, 0x5555), (1, 0xFE00)] (boot [(0x3000, 0x7040)])).setInq [0x41])
      (fun t => t.cell 0xFE00 = 0x5555 ∧ t.cell 0xFE02 = 0 ∧ t.inq = [0x41]) = true := by decide
/-- M5: ST over the next word, which is then fetched. -/
theorem test_st_self_modifying :
    afterSteps 6 (withRegs [(1, 0xF025)] (boot [(0x3000, 0x3200)]))
      (fun t => t.status = .halted ∧ t.pc = 0x3002 ∧ t.out = [0x48, 0x41, 0x4C, 0x54]) = true := by decide
/-- X17 and R144: the notice goes out code by code, from a machine that is still running. -/
theorem test_halt_begins :
    afterStep (boot [(0x3000, 0xF025)])
      (fun t => t.status = .running ∧ t.out = [0x48] ∧ t.routine = some (.halt [0x41, 0x4C, 0x54])) = true := by decide
/-- X5. -/
theorem test_getc_takes_head :
    afterStep (((withRegs [(0, 0xFFFF)] (boot [(0x3000, 0xF020)])).setCond 4).setInq [0x61, 0x62])
      (fun t => t.reg 0 = 0x61 ∧ t.cond = 4 ∧ t.inq = [0x62] ∧ t.out = [] ∧ t.reg 7 = 0) = true := by decide
/-- X6. -/
theorem test_getc_held :
    afterStep (withRegs [(0, 0xFFFF)] (boot [(0x3000, 0xF020)]))
      (fun t => t.pc = 0x3001 ∧ t.reg 0 = 0xFFFF ∧ t.status = .running ∧
        afterStep (hostKey 0x61 t) (fun u => u.reg 0 = 0x61 ∧ u.pc = 0x3001 ∧ u.inq = [])) = true := by decide
/-- X8. -/
theorem test_out_all_bits :
    afterStep (withRegs [(0, 0x0141)] (boot [(0x3000, 0xF021)])) (fun t => t.out = [0x0141]) = true := by decide
/-- X12. -/
theorem test_puts_wraps :
    afterSteps 3 (withRegs [(0, 0xFFFF)] (boot [(0x3000, 0xF022), (0xFFFF, 0x41), (0, 0x42)]))
      (fun t => t.out = [0x41, 0x42] ∧ t.reg 0 = 0xFFFF ∧ t.routine = none) = true := by decide
/-- X14. -/
theorem test_puts_over_kbsr :
    afterSteps 5 ((withRegs [(0, 0xFDFF)] (boot [(0x3000, 0xF022), (0xFDFF, 0x41), (0xFE00, 0x42), (0xFE01, 0x43)])).setInq
        [0x7A])
      (fun t => t.out = [0x41, 0x8000, 0x43, 0x7A] ∧ t.cell 0xFE02 = 0x7A ∧ t.inq = [] ∧ t.routine = none) = true := by
  decide
/-- X14 with the key sent on seeing the first character (R144): the poll that follows finds it. -/
theorem test_puts_key_between_characters :
    afterStep (withRegs [(0, 0xFDFF)] (boot [(0x3000, 0xF022), (0xFDFF, 0x41)]))
      (fun t => t.out = [0x41] ∧ afterStep (hostKey 0x7A t) (fun u => u.out = [0x41, 0x8000] ∧ u.cell 0xFE02 = 0x7A)) = true := by
  decide
/-- X15. -/
theorem test_in_faults :
    afterStep ((boot [(0x3000, 0xF023)]).setInq [0x41])
      (fun t => t.status = .faulted (.unimplementedOperation .trapIN) ∧ t.pc = 0x3001 ∧ t.inq = [0x41]) = true := by decide
/-- X16. -/
theorem test_putsp_faults :
    afterStep (boot [(0x3000, 0xF024)])
      (fun t => t.status = .faulted (.unimplementedOperation .trapPUTSP) ∧ t.out = []) = true := by decide
/-- X18. -/
theorem test_trap_unknown :
    afterStep (boot [(0x3000, 0xF000)]) (fun t => t.status = .faulted (.unknownTrapVector 0)) = true := by decide
/-- X2, and no step after it. -/
theorem test_rti_faults :
    afterStep (boot [(0x3000, 0x8ABC)])
      (fun t => t.status = .faulted (.unimplementedOperation .opcodeRTI) ∧ !afterStep t (fun _ => true)) = true := by decide
/-- X4. -/
theorem test_res_faults :
    afterStep (boot [(0x3000, 0xDFFF)]) (fun t => t.status = .faulted (.unimplementedOperation .opcodeRES)) = true := by
  decide
/-- T8. -/
theorem test_sti_faults :
    afterStep (withRegs [(7, 1)] (boot [(0x3000, 0xBFFF)]))
      (fun t => t.status = .faulted (.unimplementedOperation .opcodeSTI) ∧ t.pc = 0x3001 ∧ t.reg 7 = 1) = true := by decide
/-- M3. -/
theorem test_fetch_from_kbsr_with_key :
    afterStep ((State.reset.setPc 0xFE00).setInq [0x41])
      (fun t => t.status = .faulted (.unimplementedOperation .opcodeRTI) ∧ t.pc = 0xFE01 ∧ t.cell 0xFE02 = 0x41) = true := by
  decide
/-- M2. -/
theorem test_fetch_from_kbsr_no_key :
    afterStep ((boot [(0xFE00, 0x1021)]).setPc 0xFE00)
      (fun t => t.cell 0xFE00 = 0 ∧ t.pc = 0xFE01 ∧ t.status = .running) = true := by decide

/-! ## Witnesses: for each obligation with hypotheses, a state and operands that meet them together -/

theorem witness_DecodeOfEncodeGivesTheInstruction :
    Instr.wf (.trap 0x1F) = true ∧ Instr.wf (.trap 0x26) = true ∧ Instr.wf (.br 7 0x1FF) = true := by decide

theorem witness_EveryWordSelectsExactlyOneRow :
    (Instr.wf (.trap 0x26) = true ∧ 0xF026#16 &&& Instr.rowMask (.trap 0x26) = Instr.rowMatch (.trap 0x26) ∧
      trapVectorNamed ((0xF026#16).extractLsb 7 0) = false) ∧
    (Instr.wf .halt = true ∧ 0xF025#16 &&& Instr.rowMask .halt = Instr.rowMatch .halt ∧ Instr.rowMatch .halt ≠ 0xF000) := by
  decide

theorem witness_UnexaminedBitsNeverMatter :
    0x1401#16 &&& (decode 0x1401).examinedBits = 0x1419#16 &&& (decode 0x1401).examinedBits := by decide

theorem witness_StepRunsTheDecodedInstruction :
    (Ready (boot [(0x3000, 0x1401)]) ∧ (boot [(0x3000, 0x1401)]).pc ≠ 0xFE00 ∧
      decode ((boot [(0x3000, 0x1401)]).cell 0x3000) = .addReg 2 0 1) ∧
    (Ready (State.reset.setPc 0xFE00) ∧ (State.reset.setPc 0xFE00).pc = 0xFE00 ∧ (State.reset.setPc 0xFE00).inq = []) ∧
    (Ready ((State.reset.setPc 0xFE00).setInq [0x41]) ∧ ((State.reset.setPc 0xFE00).setInq [0x41]).inq = 0x41 :: []) := by
  unfold Ready; decide

theorem witness_StepsAreDefinedExactlyWhileRunning :
    (State.reset.setStatus .halted).status = .halted ∧
      (State.reset.setStatus (.faulted (.unknownTrapVector 0))).status = .faulted (.unknownTrapVector 0) := by decide

/-- Every hypothesis `exec i s = .next t` of the whole-machine statements: a next state in each of their cases. -/
theorem witness_ExecGivesANextState :
    (∃ t, exec (.br 7 5) (State.reset.setCond 2) = .next t) ∧ (∃ t, exec (.jmp 2) State.reset = .next t) ∧
    (∃ t, exec (.jsr 5) State.reset = .next t) ∧ (∃ t, exec (.jsrr 7) State.reset = .next t) ∧
    (∃ t, exec (.lea 1 5) State.reset = .next t ∧ flagDest (.lea 1 5) = some 1) ∧
    (∃ t, exec .getc State.reset = .next t ∧ flagDest .getc = none) :=
  ⟨⟨_, rfl⟩, ⟨_, rfl⟩, ⟨_, rfl⟩, ⟨_, rfl⟩, ⟨_, rfl, rfl⟩, ⟨_, rfl, rfl⟩⟩

theorem witness_CondIsOneHotOnceSet :
    (flagDest (.lea 1 5)).isSome = true ∧ (State.reset.setCond 4).cond = 4 ∧
      afterStep (State.reset.setCond 4) (fun t => t.cond = 4) = true := by decide

theorem witness_MemoryIsWrittenOnlyByStoresAndThePoll :
    (∃ t, exec (.st 1 6) State.reset = .next t) ∧ storeAddress (.st 1 6) State.reset = some 0x3006 ∧
    (∃ t, exec (.ld 1 6) State.reset = .next t) ∧ storeAddress (.ld 1 6) State.reset = none ∧
    NoKeyboard (.ld 1 6) State.reset :=
  ⟨⟨_, rfl⟩, by decide, ⟨_, rfl⟩, rfl, by unfold NoKeyboard; decide⟩

theorem witness_OutputIsAppendOnly :
    afterStep State.reset (fun _ => true) = true ∧
    (∃ t, exec (.lea 1 5) State.reset = .next t) ∧ Reaches State.reset (hostKey 0x41 State.reset) :=
  ⟨by decide, ⟨_, rfl⟩, .tail (.refl _) (.key 0x41 (by decide))⟩

/-- A word that meets each decoding hypothesis of the per-instruction statements. -/
theorem witness_DecodingHypotheses :
    ((0x1401#16).extractLsb 15 12 = 0x1#4 ∧ (0x1401#16).getLsbD 5 = false) ∧
    ((0x127F#16).extractLsb 15 12 = 0x1#4 ∧ (0x127F#16).getLsbD 5 = true) ∧
    ((0x5642#16).extractLsb 15 12 = 0x5#4 ∧ (0x5642#16).getLsbD 5 = false) ∧
    ((0x52BF#16).extractLsb 15 12 = 0x5#4 ∧ (0x52BF#16).getLsbD 5 = true) ∧
    (0x927F#16).extractLsb 15 12 = 0x9#4 ∧ (0x0402#16).extractLsb 15 12 = 0x0#4 ∧
    (0xC1C0#16).extractLsb 15 12 = 0xC#4 ∧
    ((0x4803#16).extractLsb 15 12 = 0x4#4 ∧ (0x4803#16).getLsbD 11 = true) ∧
    ((0x4080#16).extractLsb 15 12 = 0x4#4 ∧ (0x4080#16).getLsbD 11 = false) ∧
    (0x2207#16).extractLsb 15 12 = 0x2#4 ∧ (0xA406#16).extractLsb 15 12 = 0xA#4 ∧
    (0x62BF#16).extractLsb 15 12 = 0x6#4 ∧ (0xE002#16).extractLsb 15 12 = 0xE#4 ∧
    (0x3206#16).extractLsb 15 12 = 0x3#4 ∧ (0x7280#16).extractLsb 15 12 = 0x7#4 ∧
    (0x8000#16).extractLsb 15 12 = 0x8#4 ∧ (0xD000#16).extractLsb 15 12 = 0xD#4 ∧
    (0xB000#16).extractLsb 15 12 = 0xB#4 ∧
    ((0xF021#16).extractLsb 15 12 = 0xF#4 ∧ (0xF021#16).extractLsb 7 0 = 0x21#8) ∧
    ((0xF023#16).extractLsb 15 12 = 0xF#4 ∧ (0xF023#16).extractLsb 7 0 = 0x23#8) ∧
    ((0xF024#16).extractLsb 15 12 = 0xF#4 ∧ (0xF024#16).extractLsb 7 0 = 0x24#8) ∧
    ((0xF025#16).extractLsb 15 12 = 0xF#4 ∧ (0xF025#16).extractLsb 7 0 = 0x25#8) ∧
    ((0xF01F#16).extractLsb 15 12 = 0xF#4 ∧ ((0xF01F#16).extractLsb 7 0).toNat < 0x20) ∧
    ((0xF026#16).extractLsb 15 12 = 0xF#4 ∧ 0x25 < ((0xF026#16).extractLsb 7 0).toNat) := by decide

theorem witness_SignExtension :
    (0b10000#5).getLsbD 4 = true ∧ (0b100000#6).getLsbD 5 = true ∧ (0b100000000#9).getLsbD 8 = true ∧
      (0b10000000000#11).getLsbD 10 = true := by decide

/-- A14 and S3. -/
theorem witness_ImmediateAndRegisterFormsAgree : (withRegs [(3, 0xFFFD)] State.reset).reg 3 = sext 0b11101#5 := by decide

theorem witness_ReturnResumesAfterTheCall :
    let s := boot [(0x3000, 0xC1C0)]
    let u := s.setReg 7 0x3000
    (∃ t, exec (.jsr 5) s = .next t ∧ u.reg 7 = t.reg 7) ∧ (∃ t, exec (.jsrr 2) s = .next t ∧ u.reg 7 = t.reg 7) ∧
      Ready u ∧ u.pc ≠ 0xFE00 ∧ decode (u.cell u.pc) = .jmp 7 :=
  ⟨⟨_, rfl, by decide⟩, ⟨_, rfl, by decide⟩, ⟨rfl, rfl⟩, by decide, by decide⟩

/-- Each case of `ReadEffect`: a plain address on either side of KBSR, KBSR with no key, KBSR with a key. -/
theorem witness_ReadEffect :
    ((0xFDFF : Word) ≠ 0xFE00 ∧ (0xFE01 : Word) ≠ 0xFE00) ∧ State.reset.inq = [] ∧
      (State.reset.setInq [0x61]).inq = 0x61 :: [] := by decide

theorem witness_KeyboardPollAndLatch :
    (State.reset.setInq [0x61]).inq = [0x61] ∧ (State.reset.setInq [0x61, 0x62]).inq = 0x61 :: 0x62 :: [] := by decide

theorem witness_LdiRoundTrip :
    let s := boot [(0x3008, 0x3007), (0x3007, 0xFFF9)]
    (0x3008 : Word) = s.pc + (8 : BitVec 9).signExtend 16 ∧ (0x3008 : Word) ≠ 0xFE00 ∧ (0x3007 : Word) ≠ 0xFE00 ∧
      s.cell 0x3008 = 0x3007 ∧ s.cell 0x3007 = 0xFFF9 := by decide

theorem witness_StoreIsSeenByTheNextFetch :
    let s := withRegs [(1, 0xF025), (2, 0x3000)] State.reset
    storeAddress (.st 1 0) s = some s.pc ∧ storeAddress (.str 1 2 0) s = some s.pc ∧ s.pc ≠ 0xFE00 ∧ Ready s ∧
      (∃ t, exec (.st 1 0) s = .next t) ∧ (∃ t, exec (.str 1 2 0) s = .next t) :=
  ⟨by decide, by decide, by decide, ⟨rfl, rfl⟩, ⟨_, rfl⟩, ⟨_, rfl⟩⟩

theorem witness_TrapWritesNoLinkage :
    (0xF020#16).extractLsb 15 12 = 0xF#4 ∧ ∃ t, exec (decode 0xF020) State.reset = .next t := by
  have h : decode 0xF020 = .getc := by decide
  exact ⟨by decide, by rw [h]; exact ⟨_, rfl⟩⟩

theorem witness_GetcTakesTheHeadKey : (State.reset.setInq [0x61, 0x62]).inq = 0x61 :: [0x62] := by decide

theorem witness_GetcIsHeldUntilAKeyArrives :
    let s := State.reset.setRoutine (some .getc)
    s.status = .running ∧ s.routine = some .getc ∧ s.inq = [] := by decide

/-- X12: a string that wraps at 0xFFFF. And the empty string X11, the least length. -/
theorem witness_PutsEmitsTheString :
    let s := withRegs [(0, 0xFFFF)] (boot [(0xFFFF, 0x41), (0, 0x42)])
    let s0 := withRegs [(0, 0x4000)] State.reset
    (s.status = .running ∧ StringAt s 2) ∧ (s0.status = .running ∧ StringAt s0 0) := by
  refine ⟨⟨rfl, by decide, ?_, ?_, by decide⟩, ⟨rfl, by decide, ?_, ?_, by decide⟩⟩ <;> decide

/-- A loop of three passes, and PUTS that comes to its end in its third step (two after `exec`). -/
theorem witness_PutsRunsTheRulesLoop :
    let s := withRegs [(0, 0xFFFF)] (boot [(0xFFFF, 0x41), (0, 0x42)])
    (∃ t, s.status = .running ∧ PutsLoop (s.reg 0) s t) ∧
    (∃ u v, exec .puts s = .next u ∧ core.run 2 u = .next v ∧ v.routine = none ∧
      ∀ j < 2, ∃ w, core.run j u = .next w ∧ w.routine ≠ none) := by
  refine ⟨⟨_, rfl, .emit (by decide) (.emit (by decide) (.stop (by decide)))⟩, _, _, rfl, rfl, by decide, fun j hj => ?_⟩
  match j, hj with
  | 0, _ => exact ⟨_, rfl, by decide⟩
  | 1, _ => exact ⟨_, rfl, by decide⟩

theorem witness_PutsEndsWhenKeysRunOut :
    let s := State.reset.setRoutine (some (.puts 0x4000))
    s.status = .running ∧ s.routine = some (.puts 0x4000) := by decide

theorem witness_HaltEmitsTheNoticeAndEndsTheRun :
    (∃ u, State.reset.status = .running ∧ exec .halt State.reset = .next u) ∧
      0 < State.reset.cfg.haltNotice.length ∧ (State.resetWith ⟨0xFF, []⟩ [] []).cfg.haltNotice = [] :=
  ⟨⟨_, rfl, rfl⟩, by decide, rfl⟩

/-- A HALT that begins, one that goes on, one that ends, and one whose notice is empty. -/
theorem witness_RunHaltsExactlyAtTheHaltWord :
    let s := boot [(0x3000, 0xF025)]
    Ready s ∧ IsHaltWord (fetch s).1 ∧
    afterStep s (fun t => t.routine = some (.halt [0x41, 0x4C, 0x54])) = true ∧
    afterStep (s.setRoutine (some (.halt [0x54]))) (fun t => t.routine = some (.halt [])) = true ∧
    afterStep (s.setRoutine (some (.halt []))) (fun t => t.status = .halted) = true ∧
    afterStep (State.resetWith ⟨0xFF, []⟩ [(0x3000, 0xF025)] []) (fun t => t.status = .halted) = true :=
  ⟨⟨rfl, rfl⟩, ⟨by decide, by decide⟩, by decide, by decide, by decide, by decide⟩

/-- A step for each routine, and each case of a pass: a character, the end, the cell 0xFE00. -/
theorem witness_UnfinishedRoutines :
    let s := boot [(0x4000, 0x41)]
    afterStep (s.setRoutine (some .getc)) (fun _ => true) = true ∧
    afterStep (s.setRoutine (some (.puts 0x4000))) (fun t => t.routine = some (.puts 0x4001)) = true ∧
    afterStep (s.setRoutine (some (.puts 0x4001))) (fun t => t.routine = none) = true ∧
    afterStep (s.setRoutine (some (.puts 0xFE00))) (fun t => t.routine = none) = true ∧
    afterStep (s.setRoutine (some (.halt [0x54]))) (fun t => t.status = .running) = true ∧
    afterStep (s.setRoutine (some (.halt []))) (fun t => t.status = .halted) = true := by decide

/-- The least and the greatest vector of each unnamed range, too. -/
theorem witness_FaultsHaveExactlyTheListedCauses :
    Ready (boot [(0x3000, 0xF01F)]) ∧
    afterStep (boot [(0x3000, 0xF01F)]) (fun t => t.status = .faulted (.unknownTrapVector 0x1F)) = true ∧
    afterStep (boot [(0x3000, 0xF026)]) (fun t => t.status = .faulted (.unknownTrapVector 0x26)) = true ∧
    afterStep (boot [(0x3000, 0xF0FF)]) (fun t => t.status = .faulted (.unknownTrapVector 0xFF)) = true :=
  ⟨⟨rfl, rfl⟩, by decide, by decide, by decide⟩

theorem witness_FaultLeavesThePreciseState :
    Ready (boot [(0x3000, 0xB000)]) ∧
    afterStep (boot [(0x3000, 0xB000)]) (fun t => t.status = .faulted (.unimplementedOperation .opcodeSTI)) = true :=
  ⟨⟨rfl, rfl⟩, by decide⟩

theorem witness_KeyArrivalIsInvisibleUntilPolled :
    let s := boot [(0x3000, 0x2207)]
    Ready s ∧ s.pc ≠ 0xFE00 ∧ NoKeyboard (decode (s.cell s.pc)) (s.setPc 0x3001) ∧
      afterStep s (fun _ => true) = true ∧
      afterStep (s.setRoutine (some (.puts 0xFDFF))) (fun _ => true) = true := by
  refine ⟨⟨rfl, rfl⟩, by decide, ?_, by decide, by decide⟩
  rw [show decode ((boot [(0x3000, 0x2207)]).cell (boot [(0x3000, 0x2207)]).pc) = .ld 1 7 by decide]
  unfold NoKeyboard; decide

theorem witness_KeyQueueIsFirstInFirstOut :
    let s := (boot [(0x3000, 0xF020)]).setInq [0x61]
    s.inq = 0x61 :: [] ∧ afterStep s (fun _ => true) = true := by decide

/-- The image of P1's first word; an image of one byte too many; one that ends exactly at 0xFFFF; one that runs past it. -/
theorem witness_ImageIsPlacedFromItsOrigin :
    imageMemory [0x30, 0x00, 0xE0, 0x02] = some [(0x3000, 0xE002)] ∧ imageMemory [0x30, 0x00, 0xE0] = none ∧
    imageMemory [0xFF, 0xFF, 0xE0, 0x02] = some [(0xFFFF, 0xE002)] ∧ imageMemory [0xFF, 0xFF, 0xE0, 0x02, 0, 1] = none ∧
    (∃ s, bootImage defaultConfig [0x30, 0x00, 0xE0, 0x02] [] = some s) :=
  ⟨by decide, by decide, by decide, by decide, ⟨_, rfl⟩⟩

theorem witness_EveryMoveKeepsTheInvariant :
    State.reset.Inv ∧ afterStep State.reset (fun _ => true) = true ∧ (0xFF : Word) ≤ State.reset.cfg.keyMax :=
  ⟨⟨by decide, by decide, fun _ h => absurd h (List.not_mem_nil), .inl rfl, nofun, nofun⟩, by decide, by decide⟩

theorem witness_ResetMeetsTheInvariant :
    Memory.wf [(0x3000, 0xE002)] ∧ ∀ k ∈ [(0x61 : Word)], k ≤ defaultConfig.keyMax :=
  ⟨by decide, fun k h => by rw [List.mem_singleton.1 h]; decide⟩

/-- `withFetchWord` makes the next step fetch and run exactly that word, from every state. -/
theorem step_withFetchWord (s : State) (n w : Nat) :
    step (s.withFetchWord n w) =
      exec (decode (BitVec.ofNat 16 w)) ((s.withFetchWord n w).setPc ((s.withFetchWord n w).pc + 1)) := by
  have hpc : (s.withFetchWord n w).pc ≠ kbsr := by
    show (if s.pc = kbsr then resetPc else s.pc) ≠ kbsr
    split
    · decide
    · assumption
  have hcell : (s.withFetchWord n w).cell (s.withFetchWord n w).pc = BitVec.ofNat 16 w :=
    (Memory.read_write_eq_ite _ _ _ _).trans (if_pos rfl)
  rw [step_ready ⟨rfl, rfl⟩, fetch_plain hpc, hcell]

end Sys2Proof.Tests
end

section
/-! Sign extension of a field to a word (00_scope.md R10), for every width of at least one bit. -/

namespace Sys2Proof.Machine

/-- R10's first reading, bit by bit: below the field's width the field's own bits, above it copies of the sign. -/
theorem sext_eq_ite_zeroExtend_or_high {n : Nat} (f : BitVec (n + 1)) :
    sext f = if f.getLsbD n then f.zeroExtend 16 ||| (0xFFFF#16 <<< (n + 1)) else f.zeroExtend 16 := by
  cases hsign : f.getLsbD n with
  | false => exact BitVec.signExtend_eq_setWidth_of_msb_false hsign
  | true =>
    have hmsb : f.msb = true := hsign
    ext i hi
    by_cases hfield : i < n + 1
    · simp [sext, BitVec.getElem_signExtend, hfield]
    · have hone : (0xFFFF#16)[i - (n + 1)] = true := BitVec.getElem_allOnes _ (by omega)
      simp [sext, BitVec.getElem_signExtend, hmsb, hone, hfield]

/-- R10's second reading: the field's two's-complement number, as a word. -/
theorem toNat_sext_of_sign {n : Nat} {f : BitVec (n + 1)} (hsign : f.getLsbD n = true) :
    ((sext f).toNat : Int) = ((f.toNat : Int) - 2 ^ (n + 1)) % 65536 := by
  have hmsb : f.msb = true := hsign
  have hval : f.toInt = (f.toNat : Int) - 2 ^ (n + 1) := by
    simp [BitVec.toInt_eq_msb_cond, hmsb]
  rw [sext, BitVec.signExtend, BitVec.toNat_ofInt, hval]
  exact Int.toNat_of_nonneg (Int.emod_nonneg _ (by decide))

/-- Settles O15: the two readings of R10 hold for every width, so for the four of the core. -/
theorem signExtensionOrsInTheHighBits : Obligations.SignExtensionOrsInTheHighBits := by
  unfold Obligations.SignExtensionOrsInTheHighBits
  refine ⟨fun f => ?_, fun f => ?_, fun f => ?_, fun f => ?_, by decide⟩ <;>
    exact ⟨sext_eq_ite_zeroExtend_or_high f, toNat_sext_of_sign, BitVec.toNat_setWidth_of_le (by decide)⟩

end Sys2Proof.Machine
end

section
/-! What one `exec`, one fetch and one step can do, said once for all instructions. -/

namespace Sys2Proof.Machine

/-! ## Reads and the fetch -/

/-- A poll answers 0x0000 or 0x8000 (R56), never its own address. -/
theorem memRead_kbsr_ne_kbsr (s : State) : (memRead kbsr s).1 ≠ kbsr := by
  cases hq : s.inq with
  | nil => rw [memRead_kbsr_nil hq]; show (0 : Word) ≠ kbsr; decide
  | cons k ks => rw [memRead_kbsr_cons hq]; show kbsrReady ≠ kbsr; decide

/-- The two reads of LDI poll at most once (R132), so together they leave the state of one read. -/
theorem memRead_memRead_state (a : Word) (s : State) :
    ∃ b, (memRead (memRead a s).1 (memRead a s).2).2 = (memRead b s).2 := by
  by_cases ha : a = kbsr
  · subst ha
    exact ⟨kbsr, by rw [memRead_plain (memRead_kbsr_ne_kbsr s)]⟩
  · exact ⟨s.cell a, by rw [memRead_plain ha]⟩

@[simp] theorem fetch_pc (s : State) : (fetch s).2.pc = s.pc + 1 := by simp [fetch_eq]
@[simp] theorem fetch_cond (s : State) : (fetch s).2.cond = s.cond := by simp [fetch_eq]
@[simp] theorem fetch_status (s : State) : (fetch s).2.status = s.status := by simp [fetch_eq]
@[simp] theorem fetch_out (s : State) : (fetch s).2.out = s.out := by simp [fetch_eq]
@[simp] theorem fetch_routine (s : State) : (fetch s).2.routine = s.routine := by simp [fetch_eq]
@[simp] theorem fetch_cfg (s : State) : (fetch s).2.cfg = s.cfg := by simp [fetch_eq]

theorem fetch_ready {s : State} (h : Ready s) : Ready (fetch s).2 :=
  ⟨(fetch_status s).trans h.1, (fetch_routine s).trans h.2⟩

/-- A fetch at 0xFE00 with no key finds 0x0000. -/
theorem fetch_kbsr_nil {s : State} (hpc : s.pc = kbsr) (hq : s.inq = []) :
    fetch s = (0, (s.setCell kbsr 0).setPc 0xFE01) := by
  rw [fetch_eq, hpc, memRead_kbsr_nil hq]
  rfl

/-- A fetch at 0xFE00 with a key finds 0x8000 and takes the key (D8). -/
theorem fetch_kbsr_cons {s : State} {k : Word} {ks : List Word} (hpc : s.pc = kbsr) (hq : s.inq = k :: ks) :
    fetch s = (kbsrReady, (((s.setInq ks).setCell kbsr kbsrReady).setCell kbdr k).setPc 0xFE01) := by
  rw [fetch_eq, hpc, memRead_kbsr_cons hq]
  rfl

/-- Fetched at 0xFE00, the word is a BR that is never taken or an RTI. -/
theorem decode_fetch_kbsr {s : State} (hpc : s.pc = kbsr) :
    decode (fetch s).1 = .br 0 0 ∨ decode (fetch s).1 = .rti := by
  cases hq : s.inq with
  | nil => rw [fetch_kbsr_nil hpc hq]; exact .inl (show decode 0 = .br 0 0 by decide)
  | cons k ks => rw [fetch_kbsr_cons hpc hq]; exact .inr (show decode kbsrReady = .rti by decide)

/-! ## The trap routines, field by field -/

@[simp] theorem getcRoutine_pc (s : State) : (getcRoutine s).pc = s.pc := (getcRoutine_frame s).2.1
@[simp] theorem getcRoutine_cond (s : State) : (getcRoutine s).cond = s.cond := (getcRoutine_frame s).2.2.1
@[simp] theorem getcRoutine_status (s : State) : (getcRoutine s).status = s.status :=
  (getcRoutine_frame s).2.2.2.2.1
@[simp] theorem getcRoutine_out (s : State) : (getcRoutine s).out = s.out := (getcRoutine_frame s).2.2.2.2.2.1
@[simp] theorem getcRoutine_cfg (s : State) : (getcRoutine s).cfg = s.cfg := (getcRoutine_frame s).2.2.2.2.2.2

@[simp] theorem putsPass_reg (a : Word) (s : State) (r : Reg) : (putsPass a s).reg r = s.reg r :=
  congrArg (·[r.val]) (putsPass_frame a s).1
@[simp] theorem putsPass_pc (a : Word) (s : State) : (putsPass a s).pc = s.pc := (putsPass_frame a s).2.1
@[simp] theorem putsPass_cond (a : Word) (s : State) : (putsPass a s).cond = s.cond := (putsPass_frame a s).2.2.1
@[simp] theorem putsPass_status (a : Word) (s : State) : (putsPass a s).status = s.status :=
  (putsPass_frame a s).2.2.2.1
@[simp] theorem putsPass_cfg (a : Word) (s : State) : (putsPass a s).cfg = s.cfg := (putsPass_frame a s).2.2.2.2.1
@[simp] theorem putsPass_inq (a : Word) (s : State) : (putsPass a s).inq = (memRead a s).2.inq :=
  (putsPass_frame a s).2.2.2.2.2.2

@[simp] theorem haltRoutine_reg (cs : List Word) (s : State) (r : Reg) : (haltRoutine cs s).reg r = s.reg r :=
  congrArg (·[r.val]) (haltRoutine_frame cs s).1
@[simp] theorem haltRoutine_pc (cs : List Word) (s : State) : (haltRoutine cs s).pc = s.pc :=
  (haltRoutine_frame cs s).2.1
@[simp] theorem haltRoutine_cond (cs : List Word) (s : State) : (haltRoutine cs s).cond = s.cond :=
  (haltRoutine_frame cs s).2.2.1
@[simp] theorem haltRoutine_mem (cs : List Word) (s : State) : (haltRoutine cs s).mem = s.mem :=
  (haltRoutine_frame cs s).2.2.2.1
@[simp] theorem haltRoutine_inq (cs : List Word) (s : State) : (haltRoutine cs s).inq = s.inq :=
  (haltRoutine_frame cs s).2.2.2.2.1
@[simp] theorem haltRoutine_cfg (cs : List Word) (s : State) : (haltRoutine cs s).cfg = s.cfg :=
  (haltRoutine_frame cs s).2.2.2.2.2

/-! ## Executing one instruction -/

/-- The fault of each fail-fast instruction (R161, R163). -/
def failFastId : Instr → Option FaultId
  | .rti => some (.unimplementedOperation .opcodeRTI)
  | .sti _ _ => some (.unimplementedOperation .opcodeSTI)
  | .res => some (.unimplementedOperation .opcodeRES)
  | .inChar => some (.unimplementedOperation .trapIN)
  | .putsp => some (.unimplementedOperation .trapPUTSP)
  | .trap v => some (.unknownTrapVector v)
  | _ => none

/-- The state `exec` leaves, by the kind of the instruction. Which value a flag-updating instruction writes, and which
address a load reads, is left open. -/
inductive ExecEffect (s : State) : Instr → State → Prop where
  | alu {i : Instr} {dr : Reg} {v : Word} (hd : flagDest i = some dr) : ExecEffect s i (writeBack dr v s)
  | load {i : Instr} {dr : Reg} {v a : Word} (hd : flagDest i = some dr) :
      ExecEffect s i (writeBack dr v (memRead a s).2)
  | store {i : Instr} {a v : Word} (hi : storeAddress i s = some a) : ExecEffect s i (s.setCell a v)
  | fault {i : Instr} {why : FaultId} (hi : failFastId i = some why) : ExecEffect s i (s.setStatus (.faulted why))
  | br (nzp : BitVec 3) (off9 : BitVec 9) :
      ExecEffect s (.br nzp off9) (s.setPc (if branchTaken nzp s then pcRel9 s off9 else s.pc))
  | jmp (b : Reg) : ExecEffect s (.jmp b) (s.setPc (s.reg b))
  | jsr (off11 : BitVec 11) : ExecEffect s (.jsr off11) ((s.setReg 7 s.pc).setPc (pcRel11 s off11))
  | jsrr (b : Reg) : ExecEffect s (.jsrr b) ((s.setReg 7 s.pc).setPc ((s.setReg 7 s.pc).reg b))
  | getc : ExecEffect s .getc (getcRoutine s)
  | outChar : ExecEffect s .outChar (putChar (s.reg 0) s)
  | puts : ExecEffect s .puts (putsPass (s.reg 0) s)
  | halt : ExecEffect s .halt (haltRoutine s.cfg.haltNotice s)

theorem exec_br (nzp : BitVec 3) (off9 : BitVec 9) (s : State) :
    exec (.br nzp off9) s = .next (s.setPc (if branchTaken nzp s then pcRel9 s off9 else s.pc)) := by
  simp only [exec, execBr]
  split <;> rfl

theorem exec_ldi (dr : Reg) (off9 : BitVec 9) (s : State) :
    exec (.ldi dr off9) s = .next (loadFrom dr (memRead (pcRel9 s off9) s).1 (memRead (pcRel9 s off9) s).2) := rfl

theorem exec_halt (s : State) : exec .halt s = .next (haltRoutine s.cfg.haltNotice s) := rfl

/-- Every instruction has a next state, and `ExecEffect` says which. -/
theorem exec_total (i : Instr) (s : State) : ∃ t, exec i s = .next t ∧ ExecEffect s i t := by
  cases i with
  | addReg | addImm | andReg | andImm | notReg | lea => exact ⟨_, rfl, .alu rfl⟩
  | ld | ldr => exact ⟨_, rfl, .load rfl⟩
  | ldi dr off9 =>
    obtain ⟨b, hb⟩ := memRead_memRead_state (pcRel9 s off9) s
    exact ⟨_, exec_ldi dr off9 s, by rw [loadFrom_eq, hb]; exact .load rfl⟩
  | st | str => exact ⟨_, rfl, .store rfl⟩
  | rti | sti | res | inChar | putsp | trap => exact ⟨_, rfl, .fault rfl⟩
  | br nzp off9 => exact ⟨_, exec_br nzp off9 s, .br nzp off9⟩
  | jmp b => exact ⟨_, rfl, .jmp b⟩
  | jsr off11 => exact ⟨_, rfl, .jsr off11⟩
  | jsrr b => exact ⟨_, rfl, .jsrr b⟩
  | getc => exact ⟨_, rfl, .getc⟩
  | outChar => exact ⟨_, rfl, .outChar⟩
  | puts => exact ⟨_, rfl, .puts⟩
  | halt => exact ⟨_, rfl, .halt⟩

theorem exec_effect {i : Instr} {s t : State} (h : exec i s = .next t) : ExecEffect s i t := by
  obtain ⟨u, hu, heff⟩ := exec_total i s
  obtain rfl : u = t := Host.Outcome.next.inj (hu.symm.trans h)
  exact heff

theorem flagDest_of_storeAddress {i : Instr} {s : State} {a : Word} (h : storeAddress i s = some a) :
    flagDest i = none := by
  cases i with
  | st | str => rfl
  | _ => cases h

theorem flagDest_of_failFastId {i : Instr} {why : FaultId} (h : failFastId i = some why) : flagDest i = none := by
  cases i with
  | rti | sti | res | inChar | putsp | trap => rfl
  | _ => cases h

theorem writtenRegs_of_flagDest {i : Instr} {dr : Reg} (h : flagDest i = some dr) : writtenRegs i = [dr] := by
  cases i with
  | addReg | addImm | andReg | andImm | notReg | ld | ldi | ldr | lea => cases h; rfl
  | _ => cases h

/-! ## One step -/

/-- A step that answers a next state goes on with a routine, or executes the word it fetched. -/
theorem step_next_cases {s t : State} (h : step s = .next t) :
    (∃ r, s.status = .running ∧ s.routine = some r ∧ t = resumeRoutine r s) ∨
    (Ready s ∧ exec (decode (fetch s).1) (fetch s).2 = .next t) := by
  obtain ⟨-, e⟩ | ⟨why, -, e⟩ | ⟨r, hs, hr, e⟩ | ⟨hs, hr, e⟩ := step_cases s
  · cases e.symm.trans h
  · cases e.symm.trans h
  · exact .inl ⟨r, hs, hr, (Host.Outcome.next.inj (e.symm.trans h)).symm⟩
  · exact .inr ⟨⟨hs, hr⟩, e.symm.trans h⟩

end Sys2Proof.Machine
end

section
/-! The whole invariant (10_state.md R26, R29, R36; 20_memory.md R50; 60_exceptions.md R165), in two halves: what it says
of the data, which every operation keeps by itself, and what it says of an unfinished routine and the end of a run. -/

namespace Sys2Proof.Machine

/-! ## The two halves -/

/-- Canonical memory, a legal COND, legal keys: the half of the invariant that speaks of the data. -/
def LegalData (s : State) : Prop :=
  Memory.wf s.mem ∧ (s.cond = 0 ∨ s.cond = 1 ∨ s.cond = 2 ∨ s.cond = 4) ∧ ∀ k ∈ s.inq, k ≤ s.cfg.keyMax

/-- The half that speaks of an unfinished routine, the status and the output. -/
def LegalRoutine (s : State) : Prop :=
  (s.routine = none ∨ s.status = .running) ∧
    (∀ rest, s.routine = some (.halt rest) → ∃ done, s.cfg.haltNotice = done ++ rest ∧ done <:+ s.out) ∧
    (s.status = .halted → s.cfg.haltNotice <:+ s.out)

theorem inv_iff (s : State) : s.Inv ↔ LegalData s ∧ LegalRoutine s :=
  ⟨fun ⟨hm, hc, hk, hr, hh, he⟩ => ⟨⟨hm, hc, hk⟩, hr, hh, he⟩,
   fun ⟨⟨hm, hc, hk⟩, hr, hh, he⟩ => ⟨hm, hc, hk, hr, hh, he⟩⟩

/-! ## The data -/

theorem condOf_oneHot (v : Word) : condOf v = 1 ∨ condOf v = 2 ∨ condOf v = 4 := by
  obtain ⟨-, e⟩ | ⟨-, -, e⟩ | ⟨-, -, e⟩ := condOf_cases v
  · exact .inr (.inl e)
  · exact .inr (.inr e)
  · exact .inl e

/-- The data stay legal when the fields they stand in do. -/
theorem LegalData.congr {s t : State} (h : LegalData s) (hm : t.mem = s.mem) (hc : t.cond = s.cond)
    (hq : t.inq = s.inq) (hg : t.cfg = s.cfg) : LegalData t := by
  unfold LegalData
  rw [hm, hc, hq, hg]
  exact h

theorem LegalData.setCell {s : State} (h : LegalData s) (a v : Word) : LegalData (s.setCell a v) :=
  ⟨State.setCell_wf h.1 a v, h.2⟩

theorem LegalData.writeBack {s : State} (h : LegalData s) (dr : Reg) (v : Word) : LegalData (writeBack dr v s) :=
  ⟨h.1, .inr (condOf_oneHot v), h.2.2⟩

theorem LegalData.memRead {s : State} (h : LegalData s) (a : Word) : LegalData (memRead a s).2 := by
  obtain ⟨hm, hc, hk⟩ := h
  refine ⟨memRead_wf hm a, by rwa [memRead_cond], fun k hmem => ?_⟩
  rw [memRead_cfg]
  obtain e | ⟨q, e⟩ := memRead_inq a s
  · exact hk k (e ▸ hmem)
  · exact hk k (e ▸ List.mem_cons_of_mem q hmem)

theorem LegalData.fetch {s : State} (h : LegalData s) : LegalData (fetch s).2 := by
  rw [fetch_eq]
  exact h.memRead s.pc

theorem LegalData.getcRoutine {s : State} (h : LegalData s) : LegalData (getcRoutine s) := by
  obtain ⟨-, e⟩ | ⟨k, ks, hq, e⟩ := getcRoutine_cases s
  · rw [e]; exact h
  · obtain ⟨hm, hc, hk⟩ := h
    rw [e]
    exact ⟨hm, hc, fun q hmem => hk q (hq ▸ List.mem_cons_of_mem k hmem)⟩

theorem LegalData.putsPass {s : State} (h : LegalData s) (a : Word) : LegalData (putsPass a s) := by
  obtain ⟨-, e⟩ | ⟨-, e⟩ := putsPass_cases a s <;> rw [e] <;> exact h.memRead a

theorem LegalData.haltRoutine {s : State} (h : LegalData s) (cs : List Word) : LegalData (haltRoutine cs s) :=
  h.congr (haltRoutine_mem cs s) (haltRoutine_cond cs s) (haltRoutine_inq cs s) (haltRoutine_cfg cs s)

theorem LegalData.exec {s t : State} {i : Instr} (h : LegalData s) (hx : exec i s = .next t) : LegalData t := by
  cases exec_effect hx with
  | alu => exact h.writeBack _ _
  | load => exact (h.memRead _).writeBack _ _
  | store => exact h.setCell _ _
  | fault | br | jmp | jsr | jsrr | outChar => exact h
  | getc => exact h.getcRoutine
  | puts => exact h.putsPass _
  | halt => exact h.haltRoutine _

theorem LegalData.step {s t : State} (h : LegalData s) (hx : step s = .next t) : LegalData t := by
  obtain ⟨r, -, -, rfl⟩ | ⟨-, hx⟩ := step_next_cases hx
  · cases r with
    | getc => exact h.getcRoutine
    | puts a => exact h.putsPass a
    | halt rest => exact h.haltRoutine rest
  · exact h.fetch.exec hx

theorem LegalData.hostKey {s : State} {k : Word} (h : LegalData s) (hk : k ≤ s.cfg.keyMax) :
    LegalData (hostKey k s) := by
  obtain ⟨hm, hc, hkeys⟩ := h
  refine ⟨hm, hc, fun q hmem => ?_⟩
  obtain hq | hq := List.mem_append.1 hmem
  · exact hkeys q hq
  · exact List.mem_singleton.1 hq ▸ hk

/-! ## The routine -/

/-- The machine runs, and not inside a HALT. -/
def RunsOutsideHalt (s : State) : Prop := s.status = .running ∧ ∀ rest, s.routine ≠ some (.halt rest)

theorem runsOutsideHalt_of_ready {s : State} (h : Ready s) : RunsOutsideHalt s :=
  ⟨h.1, fun rest e => by rw [h.2] at e; cases e⟩

theorem runsOutsideHalt_getcRoutine {s : State} (h : s.status = .running) : RunsOutsideHalt (getcRoutine s) := by
  obtain ⟨-, e⟩ | ⟨k, ks, -, e⟩ := getcRoutine_cases s <;>
    exact ⟨(getcRoutine_status s).trans h, by rw [e]; nofun⟩

theorem runsOutsideHalt_putsPass {s : State} (h : s.status = .running) (a : Word) :
    RunsOutsideHalt (putsPass a s) := by
  obtain ⟨-, e⟩ | ⟨-, e⟩ := putsPass_cases a s <;>
    exact ⟨(putsPass_status a s).trans h, by rw [e]; nofun⟩

/-- What a ready machine can be after any instruction but HALT: running outside a HALT, or faulted with no routine. -/
theorem exec_runsOutsideHalt_or_faults {s t : State} {i : Instr} (h : Ready s) (hi : i ≠ .halt)
    (hx : exec i s = .next t) : RunsOutsideHalt t ∨ (∃ why, t.status = .faulted why) ∧ t.routine = none := by
  cases exec_effect hx with
  | alu | store | br | jmp | jsr | jsrr | outChar => exact .inl (runsOutsideHalt_of_ready h)
  | load =>
    exact .inl (runsOutsideHalt_of_ready ⟨(memRead_status _ s).trans h.1, (memRead_routine _ s).trans h.2⟩)
  | fault => exact .inr ⟨⟨_, rfl⟩, h.2⟩
  | getc => exact .inl (runsOutsideHalt_getcRoutine h.1)
  | puts => exact .inl (runsOutsideHalt_putsPass h.1 _)
  | halt => exact absurd rfl hi

theorem RunsOutsideHalt.legalRoutine {s : State} (h : RunsOutsideHalt s) : LegalRoutine s :=
  ⟨.inr h.1, fun rest e => absurd e (h.2 rest), fun e => by rw [h.1] at e; cases e⟩

/-- HALT keeps its half of the invariant: the codes it holds and the end of the output make up the notice. -/
theorem legalRoutine_haltRoutine {s : State} {done cs : List Word} (hs : s.status = .running)
    (hn : s.cfg.haltNotice = done ++ cs) (ho : done <:+ s.out) : LegalRoutine (haltRoutine cs s) := by
  cases cs with
  | nil => exact ⟨.inl rfl, nofun, fun _ => by rw [List.append_nil] at hn; exact hn ▸ ho⟩
  | cons c rest =>
    refine ⟨.inr hs, fun rest' e => ?_, fun e => by cases hs.symm.trans e⟩
    obtain rfl : rest = rest' := Routine.halt.inj (Option.some.inj e)
    exact ⟨done ++ [c], hn.trans (List.append_cons done c rest), (List.suffix_append_self_iff).2 ho⟩

theorem legalRoutine_exec {s t : State} {i : Instr} (h : Ready s) (hx : exec i s = .next t) : LegalRoutine t := by
  by_cases hi : i = .halt
  · subst hi
    obtain rfl := Host.Outcome.next.inj ((exec_halt s).symm.trans hx)
    exact legalRoutine_haltRoutine h.1 (List.nil_append _).symm List.nil_suffix
  · obtain hrun | ⟨⟨why, hf⟩, hr⟩ := exec_runsOutsideHalt_or_faults h hi hx
    · exact hrun.legalRoutine
    · refine ⟨.inl hr, fun rest e => ?_, fun e => ?_⟩
      · cases hr.symm.trans e
      · cases hf.symm.trans e

theorem LegalRoutine.step {s t : State} (h : LegalRoutine s) (hx : step s = .next t) : LegalRoutine t := by
  obtain ⟨r, hs, hr, rfl⟩ | ⟨hready, hx⟩ := step_next_cases hx
  · cases r with
    | getc => exact (runsOutsideHalt_getcRoutine hs).legalRoutine
    | puts a => exact (runsOutsideHalt_putsPass hs a).legalRoutine
    | halt rest =>
      obtain ⟨done, hn, ho⟩ := h.2.1 rest hr
      exact legalRoutine_haltRoutine hs hn ho
  · exact legalRoutine_exec (fetch_ready hready) hx

/-! ## The obligations -/

/-- Settles O57: both halves of the invariant are kept, each on its own. -/
theorem everyMoveKeepsTheInvariant : Obligations.EveryMoveKeepsTheInvariant := by
  unfold Obligations.EveryMoveKeepsTheInvariant
  refine ⟨fun s t hinv hx => ?_, fun s k hinv hk => ?_⟩
  · obtain ⟨hd, hr⟩ := (inv_iff s).1 hinv
    exact (inv_iff t).2 ⟨hd.step hx, hr.step hx⟩
  · obtain ⟨hd, hr⟩ := (inv_iff s).1 hinv
    exact (inv_iff _).2 ⟨hd.hostKey hk, hr⟩

theorem inv_resetWith {c : Config} {m : Memory} {q : List Word} (hm : Memory.wf m) (hq : ∀ k ∈ q, k ≤ c.keyMax) :
    (State.resetWith c m q).Inv :=
  ⟨hm, .inl rfl, hq, .inl rfl, nofun, nofun⟩

/-- Settles O58: the default machine is the case of no cell listed and no key typed ahead. -/
theorem resetMeetsTheInvariant : Obligations.ResetMeetsTheInvariant := by
  unfold Obligations.ResetMeetsTheInvariant
  exact ⟨inv_resetWith Memory.wf_nil nofun, fun _ _ _ hm hq => inv_resetWith hm hq⟩

end Sys2Proof.Machine
end

section
/-! Who writes PC, the general registers and COND, and who reads COND (10_state.md R22, R24, R27 to R29). -/

namespace Sys2Proof.Machine

/-! ## PC -/

/-- No instruction but BR, JMP, JSR and JSRR writes PC. -/
theorem exec_pc_of_not_control {i : Instr} {s t : State} (hbr : ∀ nzp off9, i ≠ .br nzp off9) (hjmp : ∀ b, i ≠ .jmp b)
    (hjsr : ∀ off11, i ≠ .jsr off11) (hjsrr : ∀ b, i ≠ .jsrr b) (hx : exec i s = .next t) : t.pc = s.pc := by
  cases exec_effect hx with
  | alu | store | fault | outChar => rfl
  | load => exact memRead_pc _ s
  | getc => exact getcRoutine_pc s
  | puts => exact putsPass_pc _ s
  | halt => exact haltRoutine_pc _ s
  | br nzp off9 => exact absurd rfl (hbr nzp off9)
  | jmp b => exact absurd rfl (hjmp b)
  | jsr off11 => exact absurd rfl (hjsr off11)
  | jsrr b => exact absurd rfl (hjsrr b)

/-- Settles O9: BR, JMP, JSR and JSRR by their own equations, the rest by `exec_pc_of_not_control`. -/
theorem pcIsWrittenOnlyByControlTransfer : Obligations.PcIsWrittenOnlyByControlTransfer := by
  unfold Obligations.PcIsWrittenOnlyByControlTransfer
  refine ⟨fetch_pc, fun i s t hx => ⟨?br, ?jmp, ?jsr, ?jsrr, fun hbr hjmp hjsr hjsrr =>
    exec_pc_of_not_control hbr hjmp hjsr hjsrr hx⟩⟩
  case br =>
    rintro nzp off9 rfl
    cases (exec_br nzp off9 s).symm.trans hx
    simp [branchTaken, pcRel9, sext]
  case jmp => rintro b rfl; cases hx; rfl
  case jsr => rintro off11 rfl; cases hx; rfl
  case jsrr => rintro b rfl; cases hx; rfl

/-! ## General registers -/

theorem exec_sameRegsBut {i : Instr} {s t : State} (hx : exec i s = .next t) : SameRegsBut (writtenRegs i) s t := by
  intro r hr
  cases exec_effect hx with
  | alu hd | load hd =>
    rw [writtenRegs_of_flagDest hd, List.mem_singleton] at hr
    simp [hr]
  | store | fault | br | jmp | outChar => rfl
  | jsr | jsrr =>
    have hne : r ≠ 7 := fun e => hr (List.mem_singleton.2 e)
    simp [hne]
  | getc => exact (getcRoutine_frame s).1 r hr
  | puts => exact putsPass_reg _ s r
  | halt => exact haltRoutine_reg _ s r

/-- Settles O10. -/
theorem generalRegistersAreWrittenOnlyAsListed : Obligations.GeneralRegistersAreWrittenOnlyAsListed := by
  unfold Obligations.GeneralRegistersAreWrittenOnlyAsListed
  exact fun _ _ _ hx => exec_sameRegsBut hx

/-! ## COND as written -/

/-- Settles O16: the flag `setcc` sets is `condOf`. -/
theorem flagRule : Obligations.FlagRule := by
  unfold Obligations.FlagRule
  exact fun v _ => ⟨condOf v, rfl, condFor_condOf v⟩

/-- A flag-updating instruction sets COND from the value it leaves in DR. -/
theorem exec_cond_of_flagDest {i : Instr} {dr : Reg} {s t : State} (hd : flagDest i = some dr)
    (hx : exec i s = .next t) : t.cond = condOf (t.reg dr) := by
  cases exec_effect hx with
  | alu hd' | load hd' =>
    obtain rfl := Option.some.inj (hd.symm.trans hd')
    simp
  | store hi => cases (flagDest_of_storeAddress hi).symm.trans hd
  | fault hi => cases (flagDest_of_failFastId hi).symm.trans hd
  | br | jmp | jsr | jsrr | getc | outChar | puts | halt => cases hd

theorem exec_cond_of_no_flagDest {i : Instr} {s t : State} (hd : flagDest i = none) (hx : exec i s = .next t) :
    t.cond = s.cond := by
  cases exec_effect hx with
  | alu hd' | load hd' => cases hd.symm.trans hd'
  | store | fault | br | jmp | jsr | jsrr | outChar => rfl
  | getc => exact getcRoutine_cond s
  | puts => exact putsPass_cond _ s
  | halt => exact haltRoutine_cond _ s

theorem resumeRoutine_cond (r : Routine) (s : State) : (resumeRoutine r s).cond = s.cond := by
  cases r with
  | getc => exact getcRoutine_cond s
  | puts a => exact putsPass_cond a s
  | halt rest => exact haltRoutine_cond rest s

/-- A step sets COND from some word or leaves it as it is. -/
theorem step_cond {s t : State} (hx : step s = .next t) : t.cond = s.cond ∨ ∃ v, t.cond = condOf v := by
  obtain ⟨r, -, -, rfl⟩ | ⟨-, hx⟩ := step_next_cases hx
  · exact .inl (resumeRoutine_cond r s)
  · cases hd : flagDest (decode (fetch s).1) with
    | none => exact .inl ((exec_cond_of_no_flagDest hd hx).trans (fetch_cond s))
    | some dr => exact .inr ⟨_, exec_cond_of_flagDest hd hx⟩

/-- Settles O12: `condOf` gives one of the three codes, and a step that does not use it keeps the code it found. -/
theorem condIsOneHotOnceSet : Obligations.CondIsOneHotOnceSet := by
  unfold Obligations.CondIsOneHotOnceSet
  refine ⟨fun i s t hd hx => ?_, fun s t hs hx => ?_⟩
  · obtain ⟨dr, hdr⟩ := Option.isSome_iff_exists.1 hd
    exact exec_cond_of_flagDest hdr hx ▸ condOf_oneHot _
  · obtain e | ⟨v, e⟩ := step_cond hx
    · exact e ▸ hs
    · exact e ▸ condOf_oneHot v

/-! ## COND as read: every instruction but BR runs the same under another COND -/

theorem memRead_setCond (a : Word) (s : State) (c : Word) :
    memRead a (s.setCond c) = ((memRead a s).1, (memRead a s).2.setCond c) := by
  by_cases ha : a = kbsr
  · subst ha
    cases hq : s.inq with
    | nil => rw [memRead_kbsr_nil hq, memRead_kbsr_nil (s := s.setCond c) hq]; rfl
    | cons k ks => rw [memRead_kbsr_cons hq, memRead_kbsr_cons (s := s.setCond c) hq]; rfl
  · simp [memRead_plain ha]

theorem loadFrom_setCond (dr : Reg) (a : Word) (s : State) (c : Word) :
    loadFrom dr a (s.setCond c) = loadFrom dr a s := by
  rw [loadFrom_eq, memRead_setCond]
  rfl

theorem getcRoutine_setCond (s : State) (c : Word) : getcRoutine (s.setCond c) = (getcRoutine s).setCond c := by
  cases hq : s.inq with
  | nil => rw [getcRoutine_nil hq, getcRoutine_nil (s := s.setCond c) hq]; rfl
  | cons k ks => rw [getcRoutine_cons hq, getcRoutine_cons (s := s.setCond c) hq]; rfl

theorem putsPass_setCond (a : Word) (s : State) (c : Word) : putsPass a (s.setCond c) = (putsPass a s).setCond c := by
  have hread := memRead_setCond a s c
  obtain ⟨h, e⟩ | ⟨h, e⟩ := putsPass_cases a s
  · rw [e, putsPass_stop (by rw [hread]; exact h), hread]; rfl
  · rw [e, putsPass_emit (by rw [hread]; exact h), hread]; rfl

theorem haltRoutine_setCond (cs : List Word) (s : State) (c : Word) :
    haltRoutine cs (s.setCond c) = (haltRoutine cs s).setCond c := by
  cases cs <;> rfl

/-- An instruction that sets COND does not look at the COND it finds. -/
theorem exec_setCond_of_flagDest {i : Instr} {dr : Reg} (hd : flagDest i = some dr) (s : State) (c : Word) :
    exec i (s.setCond c) = exec i s := by
  cases i with
  | addReg | addImm | andReg | andImm | notReg | lea => rfl
  | ld dr off9 => exact congrArg Host.Outcome.next (loadFrom_setCond dr (pcRel9 s off9) s c)
  | ldr dr b off6 => exact congrArg Host.Outcome.next (loadFrom_setCond dr (baseOff6 s b off6) s c)
  | ldi dr off9 =>
    have hread : memRead (pcRel9 (s.setCond c) off9) (s.setCond c) = _ := memRead_setCond (pcRel9 s off9) s c
    rw [exec_ldi, exec_ldi, hread, loadFrom_setCond]
  | _ => cases hd

/-- An instruction that does not set COND, BR aside, carries it through. -/
theorem exec_setCond_of_no_flagDest {i : Instr} {s t : State} (hd : flagDest i = none)
    (hbr : ∀ nzp off9, i ≠ .br nzp off9) (hx : exec i s = .next t) (c : Word) :
    exec i (s.setCond c) = .next (t.setCond c) := by
  cases i with
  | addReg | addImm | andReg | andImm | notReg | ld | ldi | ldr | lea => cases hd
  | br nzp off9 => exact absurd rfl (hbr nzp off9)
  | st | str | jsr | jsrr | jmp | rti | sti | res | outChar | inChar | putsp | trap => cases hx; rfl
  | getc => cases hx; exact congrArg Host.Outcome.next (getcRoutine_setCond s c)
  | puts => cases hx; exact congrArg Host.Outcome.next (putsPass_setCond (s.reg 0) s c)
  | halt => cases hx; exact congrArg Host.Outcome.next (haltRoutine_setCond s.cfg.haltNotice s c)

/-- Settles O11: written as `flagDest` lists, and otherwise carried through unread but by BR. -/
theorem condIsWrittenBySetccAndReadByBrOnly : Obligations.CondIsWrittenBySetccAndReadByBrOnly := by
  unfold Obligations.CondIsWrittenBySetccAndReadByBrOnly
  refine ⟨fun i s t hx => ?_, fun i s t c hbr hx => ?_⟩
  · cases hd : flagDest i with
    | none => exact exec_cond_of_no_flagDest hd hx
    | some dr =>
      show CondFor (t.reg dr) t.cond
      rw [exec_cond_of_flagDest hd hx]
      exact condFor_condOf _
  · cases hd : flagDest i with
    | none => exact ⟨t.setCond c, exec_setCond_of_no_flagDest hd hbr hx c, rfl⟩
    | some dr => exact ⟨t, (exec_setCond_of_flagDest hd s c).trans hx, rfl⟩

end Sys2Proof.Machine
end

section
/-! Output and the end of a run (10_state.md R35, R38, R41; 43_trap_system.md R144; 60_exceptions.md R165). -/

namespace Sys2Proof.Machine

/-! ## What one step puts out and takes -/

/-- The output is as it was, or has one character more at its end. -/
def EmitsAtMostOne (s t : State) : Prop := t.out = s.out ∨ ∃ c, t.out = s.out ++ [c]

/-- The key queue is as it was, or without its head. -/
def TakesAtMostOneKey (s t : State) : Prop := t.inq = s.inq ∨ ∃ k, s.inq = k :: t.inq

theorem putsPass_emitsAtMostOne (a : Word) (s : State) : EmitsAtMostOne s (putsPass a s) := by
  obtain ⟨-, e⟩ | ⟨-, e⟩ := putsPass_cases a s
  · exact .inl (by rw [e]; exact memRead_out a s)
  · exact .inr ⟨(memRead a s).1, by rw [e]; simp⟩

theorem haltRoutine_emitsAtMostOne (cs : List Word) (s : State) : EmitsAtMostOne s (haltRoutine cs s) := by
  cases cs with
  | nil => exact .inl rfl
  | cons c rest => exact .inr ⟨c, rfl⟩

theorem getcRoutine_takesAtMostOneKey (s : State) : TakesAtMostOneKey s (getcRoutine s) := by
  obtain ⟨-, e⟩ | ⟨k, ks, hq, e⟩ := getcRoutine_cases s
  · exact .inl (by rw [e]; rfl)
  · exact .inr ⟨k, by rw [e]; exact hq⟩

theorem putsPass_takesAtMostOneKey (a : Word) (s : State) : TakesAtMostOneKey s (putsPass a s) := by
  unfold TakesAtMostOneKey
  rw [putsPass_inq]
  exact memRead_inq a s

theorem exec_out_of_silent {i : Instr} {s t : State} (hout : i ≠ .outChar) (hputs : i ≠ .puts) (hhalt : i ≠ .halt)
    (hx : exec i s = .next t) : t.out = s.out := by
  cases exec_effect hx with
  | alu | store | fault | br | jmp | jsr | jsrr => rfl
  | load => exact memRead_out _ s
  | getc => exact getcRoutine_out s
  | outChar => exact absurd rfl hout
  | puts => exact absurd rfl hputs
  | halt => exact absurd rfl hhalt

theorem exec_emitsAtMostOne {i : Instr} {s t : State} (hx : exec i s = .next t) : EmitsAtMostOne s t := by
  cases exec_effect hx with
  | alu | store | fault | br | jmp | jsr | jsrr => exact .inl rfl
  | load => exact .inl (memRead_out _ s)
  | getc => exact .inl (getcRoutine_out s)
  | outChar => exact .inr ⟨s.reg 0, rfl⟩
  | puts => exact putsPass_emitsAtMostOne _ s
  | halt => exact haltRoutine_emitsAtMostOne _ s

theorem exec_takesAtMostOneKey {i : Instr} {s t : State} (hx : exec i s = .next t) : TakesAtMostOneKey s t := by
  cases exec_effect hx with
  | alu | store | fault | br | jmp | jsr | jsrr | outChar => exact .inl rfl
  | load => exact memRead_inq _ s
  | getc => exact getcRoutine_takesAtMostOneKey s
  | puts => exact putsPass_takesAtMostOneKey _ s
  | halt => exact .inl (haltRoutine_inq _ s)

/-- Executing the word fetched at 0xFE00 takes no further key. -/
theorem exec_fetch_kbsr_inq {s t : State} (hpc : s.pc = kbsr)
    (hx : exec (decode (fetch s).1) (fetch s).2 = .next t) : t.inq = (fetch s).2.inq := by
  obtain e | e := decode_fetch_kbsr hpc <;> rw [e] at hx
  · cases (exec_br 0 0 _).symm.trans hx; rfl
  · cases hx; rfl

theorem step_emitsAtMostOne {s t : State} (hx : step s = .next t) : EmitsAtMostOne s t := by
  obtain ⟨r, -, -, rfl⟩ | ⟨-, hx⟩ := step_next_cases hx
  · cases r with
    | getc => exact .inl (getcRoutine_out s)
    | puts a => exact putsPass_emitsAtMostOne a s
    | halt rest => exact haltRoutine_emitsAtMostOne rest s
  · have h := exec_emitsAtMostOne hx
    unfold EmitsAtMostOne at h
    rwa [fetch_out] at h

/-- A step takes one key at most: where the fetch itself polls, the word it finds reads nothing. -/
theorem step_takesAtMostOneKey {s t : State} (hx : step s = .next t) : TakesAtMostOneKey s t := by
  obtain ⟨r, -, -, rfl⟩ | ⟨-, hx⟩ := step_next_cases hx
  · cases r with
    | getc => exact getcRoutine_takesAtMostOneKey s
    | puts a => exact putsPass_takesAtMostOneKey a s
    | halt rest => exact .inl (haltRoutine_inq rest s)
  · by_cases hpc : s.pc = kbsr
    · unfold TakesAtMostOneKey
      rw [exec_fetch_kbsr_inq hpc hx, fetch_eq]
      exact memRead_inq s.pc s
    · have h := exec_takesAtMostOneKey hx
      unfold TakesAtMostOneKey at h
      rwa [fetch_plain hpc] at h

/-! ## The parameters, and whole runs -/

theorem exec_cfg {i : Instr} {s t : State} (hx : exec i s = .next t) : t.cfg = s.cfg := by
  cases exec_effect hx with
  | alu | store | fault | br | jmp | jsr | jsrr | outChar => rfl
  | load => exact memRead_cfg _ s
  | getc => exact getcRoutine_cfg s
  | puts => exact putsPass_cfg _ s
  | halt => exact haltRoutine_cfg _ s

theorem step_cfg {s t : State} (hx : step s = .next t) : t.cfg = s.cfg := by
  obtain ⟨r, -, -, rfl⟩ | ⟨-, hx⟩ := step_next_cases hx
  · cases r with
    | getc => exact getcRoutine_cfg s
    | puts a => exact putsPass_cfg a s
    | halt rest => exact haltRoutine_cfg rest s
  · exact (exec_cfg hx).trans (fetch_cfg s)

theorem move_out_and_cfg {s t : State} (m : Move s t) : s.out <+: t.out ∧ t.cfg = s.cfg := by
  cases m with
  | step hx =>
    refine ⟨?_, step_cfg hx⟩
    obtain e | ⟨c, e⟩ := step_emitsAtMostOne hx
    · exact e ▸ List.prefix_rfl
    · exact e ▸ List.prefix_append s.out [c]
  | key k hk => exact ⟨List.prefix_rfl, rfl⟩

theorem reaches_out_and_cfg {s t : State} (h : Reaches s t) : s.out <+: t.out ∧ t.cfg = s.cfg := by
  induction h with
  | refl => exact ⟨List.prefix_rfl, rfl⟩
  | tail _ m ih =>
    obtain ⟨hout, hcfg⟩ := ih
    obtain ⟨hout', hcfg'⟩ := move_out_and_cfg m
    exact ⟨hout.trans hout', hcfg'.trans hcfg⟩

/-- Settles O14. -/
theorem outputIsAppendOnly : Obligations.OutputIsAppendOnly := by
  unfold Obligations.OutputIsAppendOnly
  exact ⟨fun _ _ _ => exec_out_of_silent, fun _ _ hx => ⟨step_emitsAtMostOne hx, step_takesAtMostOneKey hx⟩,
    fun _ _ => reaches_out_and_cfg⟩

/-! ## HALT -/

theorem decodeTrap_eq_halt_iff (v : BitVec 8) : decodeTrap v = .halt ↔ v = 0x25 := by
  refine ⟨fun h => ?_, fun h => by rw [h]; rfl⟩
  unfold decodeTrap at h
  split_ifs at h
  assumption

theorem opcode_cases (op : BitVec 4) :
    op = 0x0 ∨ op = 0x1 ∨ op = 0x2 ∨ op = 0x3 ∨ op = 0x4 ∨ op = 0x5 ∨ op = 0x6 ∨ op = 0x7 ∨
      op = 0x8 ∨ op = 0x9 ∨ op = 0xA ∨ op = 0xB ∨ op = 0xC ∨ op = 0xD ∨ op = 0xE ∨ op = 0xF := by
  revert op
  decide

theorem opcodeOf_of_decode_eq_halt {w : Word} (h : decode w = .halt) : opcodeOf w = 0xF := by
  obtain e | e | e | e | e | e | e | e | e | e | e | e | e | e | e | e := opcode_cases (opcodeOf w)
  · cases (decode_op0 w e).symm.trans h
  · rw [decode_op1 w e] at h; split at h <;> cases h
  · cases (decode_op2 w e).symm.trans h
  · cases (decode_op3 w e).symm.trans h
  · rw [decode_op4 w e] at h; split at h <;> cases h
  · rw [decode_op5 w e] at h; split at h <;> cases h
  · cases (decode_op6 w e).symm.trans h
  · cases (decode_op7 w e).symm.trans h
  · cases (decode_op8 w e).symm.trans h
  · cases (decode_op9 w e).symm.trans h
  · cases (decode_opA w e).symm.trans h
  · cases (decode_opB w e).symm.trans h
  · cases (decode_opC w e).symm.trans h
  · cases (decode_opD w e).symm.trans h
  · cases (decode_opE w e).symm.trans h
  · exact e

/-- The word decoded as HALT is TRAP x25 (R35), whatever its spare bits. -/
theorem decode_eq_halt_iff (w : Word) : decode w = .halt ↔ IsHaltWord w := by
  refine ⟨fun h => ?_, fun ⟨hop, hv⟩ => ?_⟩
  · have hop : opcodeOf w = 0xF := opcodeOf_of_decode_eq_halt h
    exact ⟨hop, (decodeTrap_eq_halt_iff _).1 ((decode_opF w hop).symm.trans h)⟩
  · exact (decode_opF w hop).trans ((decodeTrap_eq_halt_iff _).2 hv)

/-- The run is over, or inside a HALT. -/
def InHalt (s : State) : Prop := s.status = .halted ∨ ∃ rest, s.routine = some (.halt rest)

theorem RunsOutsideHalt.not_inHalt {s : State} (h : RunsOutsideHalt s) : ¬ InHalt s := by
  rintro (e | ⟨rest, e⟩)
  · cases h.1.symm.trans e
  · exact h.2 rest e

theorem inHalt_haltRoutine (cs : List Word) (s : State) : InHalt (haltRoutine cs s) := by
  cases cs with
  | nil => exact .inl rfl
  | cons c rest => exact .inr ⟨rest, rfl⟩

theorem haltRoutine_status_eq_halted_iff {s : State} (hs : s.status = .running) (cs : List Word) :
    (haltRoutine cs s).status = .halted ↔ cs = [] := by
  cases cs with
  | nil => simp [haltRoutine_nil]
  | cons c rest => simp [haltRoutine_cons, hs]

/-- From a ready machine no instruction but HALT leads into a HALT. -/
theorem exec_inHalt_iff {i : Instr} {s t : State} (h : Ready s) (hx : exec i s = .next t) : InHalt t ↔ i = .halt := by
  refine ⟨fun ht => ?_, ?_⟩
  · by_contra hi
    obtain hrun | ⟨⟨why, hf⟩, hr⟩ := exec_runsOutsideHalt_or_faults h hi hx
    · exact hrun.not_inHalt ht
    · obtain e | ⟨rest, e⟩ := ht
      · cases hf.symm.trans e
      · cases hr.symm.trans e
  · rintro rfl
    cases (exec_halt s).symm.trans hx
    exact inHalt_haltRoutine _ s

theorem exec_status_eq_halted_iff {i : Instr} {s t : State} (h : Ready s) (hx : exec i s = .next t) :
    t.status = .halted ↔ i = .halt ∧ s.cfg.haltNotice = [] := by
  by_cases hi : i = .halt
  · subst hi
    cases (exec_halt s).symm.trans hx
    simp [haltRoutine_status_eq_halted_iff h.1]
  · exact ⟨fun ht => absurd ((exec_inHalt_iff h hx).1 (.inl ht)) hi, fun e => absurd e.1 hi⟩

/-- A running machine that goes on with a routine halts when that is a HALT with no code left. -/
theorem resumeRoutine_status_eq_halted_iff {s : State} (hs : s.status = .running) (r : Routine) :
    (resumeRoutine r s).status = .halted ↔ r = .halt [] := by
  cases r with
  | getc => exact iff_of_false (fun e => (runsOutsideHalt_getcRoutine hs).not_inHalt (.inl e)) nofun
  | puts a => exact iff_of_false (fun e => (runsOutsideHalt_putsPass hs a).not_inHalt (.inl e)) nofun
  | halt rest => exact (haltRoutine_status_eq_halted_iff hs rest).trans (by simp)

/-- An unfinished HALT is left with `rest` by a HALT that held one code more. -/
theorem resumeRoutine_routine_halt {s : State} {r : Routine} {rest : List Word} (hs : s.status = .running)
    (h : (resumeRoutine r s).routine = some (.halt rest)) : ∃ c, r = .halt (c :: rest) := by
  cases r with
  | getc => exact absurd h ((runsOutsideHalt_getcRoutine hs).2 rest)
  | puts a => exact absurd h ((runsOutsideHalt_putsPass hs a).2 rest)
  | halt cs =>
    cases cs with
    | nil => cases h
    | cons c cs => cases h; exact ⟨c, rfl⟩

/-- One step after the codes `cs` are begun, each further step puts out one, and the last of them halts. -/
theorem run_haltRoutine (cs : List Word) {s : State} (hs : s.status = .running) :
    ∃ t, core.run cs.length (haltRoutine cs s) = .next t ∧ t.status = .halted ∧ t.pc = s.pc ∧ t.out = s.out ++ cs := by
  induction cs generalizing s with
  | nil => exact ⟨_, run_zero _, rfl, rfl, (List.append_nil _).symm⟩
  | cons c rest ih =>
    have hstep : step (haltRoutine (c :: rest) s) = .next (haltRoutine rest (haltRoutine (c :: rest) s)) :=
      step_unfinished (s := haltRoutine (c :: rest) s) hs rfl
    obtain ⟨t, hrun, hhalted, hpc, hout⟩ := ih (s := haltRoutine (c :: rest) s) hs
    exact ⟨t, (run_succ hstep _).trans hrun, hhalted, hpc, hout.trans (List.append_cons s.out c rest).symm⟩

theorem step_halt_word {s : State} (h : Ready s) (hw : IsHaltWord (fetch s).1) :
    step s = .next (haltRoutine s.cfg.haltNotice (fetch s).2) := by
  rw [step_ready h, (decode_eq_halt_iff _).2 hw, exec_halt, fetch_cfg]

theorem run_halt_word {s : State} (h : Ready s) (hw : IsHaltWord (fetch s).1) :
    ∃ t, core.run (s.cfg.haltNotice.length + 1) s = .next t ∧ t.status = .halted ∧ t.pc = s.pc + 1 ∧
      t.out = s.out ++ s.cfg.haltNotice := by
  obtain ⟨t, hrun, hhalted, hpc, hout⟩ := run_haltRoutine s.cfg.haltNotice (fetch_ready h).1
  exact ⟨t, (run_succ (step_halt_word h hw) _).trans hrun, hhalted, hpc.trans (fetch_pc s), by rw [hout, fetch_out]⟩

theorem step_status_eq_halted_iff {s t : State} (hx : step s = .next t) :
    t.status = .halted ↔
      s.routine = some (.halt []) ∨ (Ready s ∧ IsHaltWord (fetch s).1 ∧ s.cfg.haltNotice = []) := by
  obtain ⟨r, hs, hr, rfl⟩ | ⟨hready, hx⟩ := step_next_cases hx
  · rw [resumeRoutine_status_eq_halted_iff hs]
    simp [Ready, hr]
  · rw [exec_status_eq_halted_iff (fetch_ready hready) hx, decode_eq_halt_iff, fetch_cfg]
    simp [hready, hready.2]

/-- Settles O47. -/
theorem runHaltsExactlyAtTheHaltWord : Obligations.RunHaltsExactlyAtTheHaltWord := by
  unfold Obligations.RunHaltsExactlyAtTheHaltWord
  refine ⟨fun s t h hx => ?_, fun s t rest hx ht => ?_, fun s t => step_status_eq_halted_iff,
    fun s => run_halt_word⟩
  · exact (exec_inHalt_iff (fetch_ready h) ((step_ready h).symm.trans hx)).trans (decode_eq_halt_iff _)
  · obtain ⟨r, hs, hr, rfl⟩ | ⟨hready, -⟩ := step_next_cases hx
    · obtain ⟨c, rfl⟩ := resumeRoutine_routine_halt hs ht
      exact .inr ⟨c, hr⟩
    · exact .inl hready

end Sys2Proof.Machine
end

section
/-! One more key (10_state.md R36): a read, and so an instruction and a step, finds the same with a key appended, unless it
polls an empty queue. -/

namespace Sys2Proof.Machine

/-! ## Reads and routines -/

theorem memRead_hostKey {a : Word} {s : State} (h : a ≠ kbsr ∨ s.inq ≠ []) (k : Word) :
    memRead a (hostKey k s) = ((memRead a s).1, hostKey k (memRead a s).2) := by
  by_cases ha : a = kbsr
  · obtain ⟨q, qs, hq⟩ := List.exists_cons_of_ne_nil (h.resolve_left (not_not_intro ha))
    have hq' : (hostKey k s).inq = q :: (qs ++ [k]) := congrArg (· ++ [k]) hq
    subst ha
    rw [memRead_kbsr_cons hq, memRead_kbsr_cons hq']
    rfl
  · rw [memRead_plain ha, memRead_plain ha]
    rfl

theorem loadFrom_hostKey {a : Word} {s : State} (h : a ≠ kbsr ∨ s.inq ≠ []) (dr : Reg) (k : Word) :
    loadFrom dr a (hostKey k s) = hostKey k (loadFrom dr a s) := by
  rw [loadFrom_eq, memRead_hostKey h]
  rfl

theorem getcRoutine_hostKey {s : State} (h : s.inq ≠ []) (k : Word) :
    getcRoutine (hostKey k s) = hostKey k (getcRoutine s) := by
  obtain ⟨q, qs, hq⟩ := List.exists_cons_of_ne_nil h
  have hq' : (hostKey k s).inq = q :: (qs ++ [k]) := congrArg (· ++ [k]) hq
  rw [getcRoutine_cons hq, getcRoutine_cons hq']
  rfl

theorem putsPass_hostKey {a : Word} {s : State} (h : a ≠ kbsr ∨ s.inq ≠ []) (k : Word) :
    putsPass a (hostKey k s) = hostKey k (putsPass a s) := by
  have hread := memRead_hostKey h k
  obtain ⟨hc, e⟩ | ⟨hc, e⟩ := putsPass_cases a s
  · rw [e, putsPass_stop (by rw [hread]; exact hc), hread]; rfl
  · rw [e, putsPass_emit (by rw [hread]; exact hc), hread]; rfl

theorem haltRoutine_hostKey (cs : List Word) (s : State) (k : Word) :
    haltRoutine cs (hostKey k s) = hostKey k (haltRoutine cs s) := by
  cases cs <;> rfl

/-! ## Instructions -/

/-- Where LDI never looks at the keyboard, or finds a key there, its second read polls no empty queue: a first read that
takes the key answers a pointer other than 0xFE00. -/
theorem ldi_second_read {a : Word} {s : State} (h : (a ≠ kbsr ∧ s.cell a ≠ kbsr) ∨ s.inq ≠ []) :
    (memRead a s).1 ≠ kbsr ∨ (memRead a s).2.inq ≠ [] := by
  by_cases ha : a = kbsr
  · exact .inl (ha ▸ memRead_kbsr_ne_kbsr s)
  · rw [memRead_plain ha]
    exact h.imp_left And.right

/-- An instruction that does not look at the keyboard, or finds a key there, does the same with one more key. -/
theorem exec_hostKey {i : Instr} {s t : State} (h : NoKeyboard i s ∨ s.inq ≠ []) (hx : exec i s = .next t)
    (k : Word) : exec i (hostKey k s) = .next (hostKey k t) := by
  cases i with
  | addReg | addImm | andReg | andImm | notReg | lea | st | str | jmp | jsr | jsrr | rti | sti | res | outChar | inChar
  | putsp | trap => cases hx; rfl
  | br nzp off9 =>
    cases (exec_br nzp off9 s).symm.trans hx
    exact exec_br nzp off9 (hostKey k s)
  | ld dr off9 => cases hx; exact congrArg Host.Outcome.next (loadFrom_hostKey h dr k)
  | ldr dr b off6 => cases hx; exact congrArg Host.Outcome.next (loadFrom_hostKey h dr k)
  | ldi dr off9 =>
    have hread : memRead (pcRel9 (hostKey k s) off9) (hostKey k s) = _ := memRead_hostKey (h.imp_left And.left) k
    cases (exec_ldi dr off9 s).symm.trans hx
    rw [exec_ldi, hread, loadFrom_hostKey (ldi_second_read h)]
  | getc => cases hx; exact congrArg Host.Outcome.next (getcRoutine_hostKey (h.resolve_left id) k)
  | puts => cases hx; exact congrArg Host.Outcome.next (putsPass_hostKey h k)
  | halt => cases hx; exact congrArg Host.Outcome.next (haltRoutine_hostKey s.cfg.haltNotice s k)

/-! ## Steps -/

theorem fetch_hostKey {s : State} (h : s.pc ≠ kbsr ∨ s.inq ≠ []) (k : Word) :
    fetch (hostKey k s) = ((fetch s).1, hostKey k (fetch s).2) := by
  have hread : memRead (hostKey k s).pc (hostKey k s) = _ := memRead_hostKey h k
  rw [fetch_eq, fetch_eq, hread]
  rfl

/-- The word fetched at 0xFE00 does not look at the keyboard; one fetched elsewhere finds the queue as it was. -/
theorem fetched_reads_no_empty_queue {s : State} (h : s.inq ≠ []) :
    NoKeyboard (decode (fetch s).1) (fetch s).2 ∨ (fetch s).2.inq ≠ [] := by
  by_cases hpc : s.pc = kbsr
  · obtain e | e := decode_fetch_kbsr hpc <;> rw [e] <;> exact .inl trivial
  · rw [fetch_plain hpc]
    exact .inr h

theorem step_ready_hostKey {s t : State} {k : Word} (hready : Ready s) (hpc : s.pc ≠ kbsr ∨ s.inq ≠ [])
    (hread : NoKeyboard (decode (fetch s).1) (fetch s).2 ∨ (fetch s).2.inq ≠ [])
    (hx : exec (decode (fetch s).1) (fetch s).2 = .next t) : step (hostKey k s) = .next (hostKey k t) := by
  rw [step_ready (s := hostKey k s) hready, fetch_hostKey hpc]
  exact exec_hostKey hread hx k

theorem resumeRoutine_hostKey {r : Routine} {s : State} (h : (r ≠ .getc ∧ r ≠ .puts kbsr) ∨ s.inq ≠ []) (k : Word) :
    resumeRoutine r (hostKey k s) = hostKey k (resumeRoutine r s) := by
  cases r with
  | getc => exact getcRoutine_hostKey (h.resolve_left fun hr => hr.1 rfl) k
  | puts a => exact putsPass_hostKey (h.imp_left fun hr ha => hr.2 (congrArg Routine.puts ha)) k
  | halt rest => exact haltRoutine_hostKey rest s k

/-- Settles O54. -/
theorem keyQueueIsFirstInFirstOut : Obligations.KeyQueueIsFirstInFirstOut := by
  unfold Obligations.KeyQueueIsFirstInFirstOut
  intro s t k q qs hq hx
  have hne : s.inq ≠ [] := hq ▸ List.cons_ne_nil q qs
  obtain ⟨r, hs, hr, rfl⟩ | ⟨hready, hx⟩ := step_next_cases hx
  · rw [step_unfinished (s := hostKey k s) hs hr, resumeRoutine_hostKey (.inr hne)]
  · exact step_ready_hostKey hready (.inr hne) (fetched_reads_no_empty_queue hne) hx

end Sys2Proof.Machine
end

section
/-! The step as a whole, and reset (10_state.md R31, R34, R40). -/

namespace Sys2Proof.Machine

/-- Settles O6: a ready step is `exec` after the fetch, and the three cases are the three things a fetch can do. -/
theorem stepRunsTheDecodedInstruction : Obligations.StepRunsTheDecodedInstruction := by
  unfold Obligations.StepRunsTheDecodedInstruction
  refine ⟨fun s i h hpc hi => ?_, fun s h hpc hq => ?_, fun s k ks h hpc hq => ?_⟩
  · rw [step_ready h, fetch_plain hpc, hi]
    rfl
  · rw [step_ready h, fetch_kbsr_nil hpc hq]
    rfl
  · rw [step_ready h, fetch_kbsr_cons hpc hq]
    rfl

theorem step_halted {s : State} (h : s.status = .halted) : step s = .fault .stepAfterHalt := by simp [step, h]

theorem step_faulted {s : State} {why : FaultId} (h : s.status = .faulted why) :
    step s = .fault (.stepAfterFault why) := by simp [step, h]

theorem exists_step_of_running {s : State} (h : s.status = .running) : ∃ t, step s = .next t := by
  cases hr : s.routine with
  | some r => exact ⟨_, step_unfinished h hr⟩
  | none =>
    obtain ⟨t, ht, -⟩ := exec_total (decode (fetch s).1) (fetch s).2
    exact ⟨t, (step_ready ⟨h, hr⟩).trans ht⟩

theorem running_of_step {s t : State} (hx : step s = .next t) : s.status = .running := by
  obtain ⟨r, hs, -, -⟩ | ⟨hready, -⟩ := step_next_cases hx
  · exact hs
  · exact hready.1

/-- Settles O7. -/
theorem stepsAreDefinedExactlyWhileRunning : Obligations.StepsAreDefinedExactlyWhileRunning := by
  unfold Obligations.StepsAreDefinedExactlyWhileRunning
  exact ⟨fun _ => ⟨exists_step_of_running, fun ⟨_, hx⟩ => running_of_step hx⟩, fun _ => step_halted,
    fun _ _ => step_faulted⟩

theorem registerFile_resetWith (c : Config) (m : Memory) (q : List Word) :
    (State.resetWith c m q).registerFile = [0, 0, 0, 0, 0, 0, 0, 0, 0x3000, 0] := rfl

/-- Settles O55: each field as `State.resetWith` writes it. -/
theorem resetState : Obligations.ResetState := by
  unfold Obligations.ResetState
  exact ⟨registerFile_resetWith _ _ _, rfl, rfl, rfl, rfl, fun _ => rfl, rfl, fun c m q =>
    ⟨registerFile_resetWith c m q, rfl, rfl, rfl, rfl, rfl, fun _ => rfl⟩⟩

end Sys2Proof.Machine
end

section
/-! Memory and the keyboard (20_memory.md R51 to R53, R56, R62, R66): what a read does, what a store does, and which cells
an instruction can change. -/

namespace Sys2Proof.Machine

/-! ## What a read does -/

/-- R52 for every address: elsewhere a plain read, at 0xFE00 a poll that finds no key or takes the head key. -/
theorem memRead_readEffect (a : Word) (s : State) : ReadEffect a s (memRead a s).2 (memRead a s).1 := by
  refine ⟨fun ha => ?plain, fun ha hq => ?noKey, fun ha k ks hq => ?key⟩
  case plain =>
    rw [memRead_plain ha]
    exact ⟨rfl, fun _ => rfl, rfl⟩
  case noKey =>
    obtain rfl : a = kbsr := ha
    rw [memRead_kbsr_nil hq]
    exact ⟨rfl, fun b => State.cell_setCell s kbsr b 0, hq⟩
  case key =>
    obtain rfl : a = kbsr := ha
    rw [memRead_kbsr_cons hq]
    refine ⟨rfl, rfl, fun b => ?_⟩
    have hne : kbsr ≠ kbdr := by decide
    show State.cell _ b = if b = kbsr then kbsrReady else if b = kbdr then k else s.cell b
    by_cases hb : b = kbsr
    · simp [hb, hne]
    · simp [hb]

/-- Settles O28. -/
theorem memReadPollsOnlyAtKbsr : Obligations.MemReadPollsOnlyAtKbsr := by
  unfold Obligations.MemReadPollsOnlyAtKbsr
  exact fun a s => ⟨memRead_readEffect a s, fun r _ => memRead_reg a s r, memRead_pc a s, memRead_cond a s,
    memRead_status a s, memRead_out a s, memRead_routine a s, memRead_cfg a s⟩

/-- A read changes no cell but the two device registers. -/
theorem memRead_cell_of_not_device {b : Word} (hs : b ≠ kbsr) (hd : b ≠ kbdr) (a : Word) (s : State) :
    (memRead a s).2.cell b = s.cell b := by
  by_cases ha : a = kbsr
  · subst ha
    cases hq : s.inq with
    | nil => simp [memRead_kbsr_nil hq, hs]
    | cons k ks => simp [memRead_kbsr_cons hq, hs, hd]
  · rw [memRead_plain ha]

/-! ## Poll and latch -/

/-- The word a poll answers depends on the key queue alone (R56). -/
theorem memRead_kbsr_fst (s : State) : (memRead kbsr s).1 = if s.inq.isEmpty then 0 else kbsrReady := by
  cases hq : s.inq with
  | nil => rw [memRead_kbsr_nil hq]; rfl
  | cons k ks => rw [memRead_kbsr_cons hq]; rfl

/-- A poll that takes a key latches it in KBDR. -/
theorem memRead_kbsr_latches {s : State} {k : Word} {ks : List Word} (hq : s.inq = k :: ks) :
    (memRead kbsr s).2.inq = ks ∧ (memRead kbsr s).2.cell kbdr = k := by
  rw [memRead_kbsr_cons hq]
  exact ⟨rfl, by simp⟩

/-- A poll that finds no key leaves KBDR as it was. -/
theorem memRead_kbsr_nil_cell_kbdr {s : State} (hq : s.inq = []) : (memRead kbsr s).2.cell kbdr = s.cell kbdr := by
  have hne : kbdr ≠ kbsr := by decide
  rw [memRead_kbsr_nil hq]
  simp [hne]

/-- R56 (a): a key is seen by one poll, and KBDR keeps it over the next. -/
theorem memRead_kbsr_twice_one_key {s : State} {k : Word} (hq : s.inq = [k]) :
    (memRead kbsr s).1 = kbsrReady ∧ (memRead kbsr (memRead kbsr s).2).1 = 0 ∧
      (memRead kbsr (memRead kbsr s).2).2.cell kbdr = k := by
  obtain ⟨hq', hcell⟩ := memRead_kbsr_latches hq
  refine ⟨?_, ?_, (memRead_kbsr_nil_cell_kbdr hq').trans hcell⟩
  · rw [memRead_kbsr_fst, hq]; rfl
  · rw [memRead_kbsr_fst, hq']; rfl

/-- R56 (b): a second poll latches the second key over the first. -/
theorem memRead_kbsr_twice_two_keys {s : State} {k k2 : Word} {ks : List Word} (hq : s.inq = k :: k2 :: ks) :
    (memRead kbsr (memRead kbsr s).2).1 = kbsrReady ∧ (memRead kbsr (memRead kbsr s).2).2.cell kbdr = k2 ∧
      (memRead kbsr (memRead kbsr s).2).2.inq = ks := by
  obtain ⟨hq', -⟩ := memRead_kbsr_latches hq
  obtain ⟨hq'', hcell⟩ := memRead_kbsr_latches hq'
  refine ⟨?_, hcell, hq''⟩
  rw [memRead_kbsr_fst, hq']; rfl

/-- R56 (d): what was stored in KBSR does not show in the next read of it. -/
theorem memRead_kbsr_memWrite (a v : Word) (s : State) :
    (memRead kbsr (memWrite a v s)).1 = (memRead kbsr s).1 := by
  rw [memRead_kbsr_fst, memRead_kbsr_fst]
  rfl

/-- Settles O30. -/
theorem keyboardPollAndLatch : Obligations.KeyboardPollAndLatch := by
  unfold Obligations.KeyboardPollAndLatch
  exact ⟨fun _ _ => memRead_kbsr_twice_one_key, fun _ _ _ _ => memRead_kbsr_twice_two_keys,
    fun _ => memRead_plain (by decide), fun s v => memRead_kbsr_memWrite kbsr v s⟩

/-! ## What a store does -/

/-- Settles O29: the cells by the read law of memory, the rest because `setCell` writes `mem` only. -/
theorem memWriteIsAPlainStore : Obligations.MemWriteIsAPlainStore := by
  unfold Obligations.MemWriteIsAPlainStore
  exact fun a v s => ⟨fun b => State.cell_setCell s a b v, rfl⟩

theorem exec_st (sr : Reg) (off9 : BitVec 9) (s : State) :
    exec (.st sr off9) s = .next (s.setCell (pcRel9 s off9) (s.reg sr)) := rfl

theorem exec_str (sr b : Reg) (off6 : BitVec 6) (s : State) :
    exec (.str sr b off6) s = .next (s.setCell (baseOff6 s b off6) (s.reg sr)) := rfl

/-- ST or STR with source register `sr`. -/
def StoresReg (sr : Reg) (i : Instr) : Prop := (∃ off9, i = .st sr off9) ∨ ∃ b off6, i = .str sr b off6

theorem exists_storesReg_of_storeAddress {i : Instr} {s : State} {a : Word} (ha : storeAddress i s = some a) :
    ∃ sr, StoresReg sr i := by
  cases i with
  | st sr off9 => exact ⟨sr, .inl ⟨off9, rfl⟩⟩
  | str sr b off6 => exact ⟨sr, .inr ⟨b, off6, rfl⟩⟩
  | _ => cases ha

/-- ST and STR store their register at `storeAddress` and do nothing else. -/
theorem exec_of_storesReg {i : Instr} {sr : Reg} {s : State} {a : Word} (hi : StoresReg sr i)
    (ha : storeAddress i s = some a) : exec i s = .next (s.setCell a (s.reg sr)) := by
  obtain ⟨off9, rfl⟩ | ⟨b, off6, rfl⟩ := hi
  · cases ha; exact exec_st sr off9 s
  · cases ha; exact exec_str sr b off6 s

/-- A word stored at PC, away from 0xFE00, is the one a ready machine runs next. -/
theorem step_setCell_pc {s : State} (h : Ready s) (hpc : s.pc ≠ kbsr) (v : Word) :
    step (s.setCell s.pc v) = exec (decode v) ((s.setCell s.pc v).setPc (s.pc + 1)) := by
  have hready : Ready (s.setCell s.pc v) := h
  have hcell : (s.setCell s.pc v).cell s.pc = v := by simp
  rw [step_ready hready, fetch_plain (s := s.setCell s.pc v) hpc, State.setCell_pc, hcell]

/-- Settles O38. -/
theorem storeIsSeenByTheNextFetch : Obligations.StoreIsSeenByTheNextFetch := by
  unfold Obligations.StoreIsSeenByTheNextFetch
  intro i s t sr hi ha hpc h hx
  obtain rfl := Host.Outcome.next.inj ((exec_of_storesReg hi ha).symm.trans hx)
  exact step_setCell_pc h hpc (s.reg sr)

/-! ## Which cells an instruction can change -/

/-- A store changes no cell but the one it stores to. -/
theorem exec_cell_of_store {i : Instr} {s t : State} {a b : Word} (ha : storeAddress i s = some a)
    (hb : b ≠ a) (hx : exec i s = .next t) : t.cell b = s.cell b := by
  obtain ⟨sr, hi⟩ := exists_storesReg_of_storeAddress ha
  obtain rfl := Host.Outcome.next.inj ((exec_of_storesReg hi ha).symm.trans hx)
  simp [hb]

@[simp] theorem getcRoutine_mem (s : State) : (getcRoutine s).mem = s.mem := (getcRoutine_frame s).2.2.2.1

@[simp] theorem putsPass_mem (a : Word) (s : State) : (putsPass a s).mem = (memRead a s).2.mem :=
  (putsPass_frame a s).2.2.2.2.2.1

/-- An instruction that stores nothing leaves memory as it was, or as one read leaves it. -/
theorem exec_mem_of_no_store {i : Instr} {s t : State} (hn : storeAddress i s = none) (hx : exec i s = .next t) :
    t.mem = s.mem ∨ ∃ a, t.mem = (memRead a s).2.mem := by
  cases exec_effect hx with
  | alu | fault | br | jmp | jsr | jsrr | outChar => exact .inl rfl
  | load => exact .inr ⟨_, rfl⟩
  | store ha => cases hn.symm.trans ha
  | getc => exact .inl (getcRoutine_mem s)
  | puts => exact .inr ⟨_, putsPass_mem _ s⟩
  | halt => exact .inl (haltRoutine_mem _ s)

theorem cell_eq_of_mem_eq {s t : State} (h : t.mem = s.mem) (b : Word) : t.cell b = s.cell b :=
  congrArg (Memory.read · b) h

theorem exec_cell_of_no_store {i : Instr} {s t : State} {b : Word} (hn : storeAddress i s = none) (hs : b ≠ kbsr)
    (hd : b ≠ kbdr) (hx : exec i s = .next t) : t.cell b = s.cell b := by
  obtain e | ⟨a, e⟩ := exec_mem_of_no_store hn hx
  · exact cell_eq_of_mem_eq e b
  · exact (cell_eq_of_mem_eq e b).trans (memRead_cell_of_not_device hs hd a s)

theorem loadFrom_mem_of_ne_kbsr {a : Word} (ha : a ≠ kbsr) (dr : Reg) (s : State) :
    (loadFrom dr a s).mem = s.mem := by
  rw [loadFrom_eq, memRead_plain ha]
  rfl

/-- An instruction that neither stores nor looks at the keyboard leaves memory as it was: none of its reads is a poll. -/
theorem exec_mem_of_noKeyboard {i : Instr} {s t : State} (hk : NoKeyboard i s) (hn : storeAddress i s = none)
    (hx : exec i s = .next t) : t.mem = s.mem := by
  cases i with
  | addReg | addImm | andReg | andImm | notReg | lea | jmp | jsr | jsrr | rti | sti | res | outChar | inChar | putsp
  | trap => cases hx; rfl
  | st | str => cases hn
  | br nzp off9 => cases (exec_br nzp off9 s).symm.trans hx; rfl
  | ld dr off9 => cases hx; exact loadFrom_mem_of_ne_kbsr hk dr s
  | ldr dr b off6 => cases hx; exact loadFrom_mem_of_ne_kbsr hk dr s
  | ldi dr off9 =>
    obtain ⟨hpointer, hdata⟩ := hk
    cases (exec_ldi dr off9 s).symm.trans hx
    rw [memRead_plain hpointer]
    exact loadFrom_mem_of_ne_kbsr hdata dr s
  | getc => exact hk.elim
  | puts => cases hx; rw [putsPass_mem, memRead_plain hk]
  | halt => cases hx; exact haltRoutine_mem s.cfg.haltNotice s

/-- Settles O13. -/
theorem memoryIsWrittenOnlyByStoresAndThePoll : Obligations.MemoryIsWrittenOnlyByStoresAndThePoll := by
  unfold Obligations.MemoryIsWrittenOnlyByStoresAndThePoll
  exact fun i s t hx => ⟨fun a ha b hb => exec_cell_of_store ha hb hx,
    fun hn b hs hd => exec_cell_of_no_store hn hs hd hx,
    fun hk hn => cell_eq_of_mem_eq (exec_mem_of_noKeyboard hk hn hx)⟩

/-! ## No access stops an instruction -/

/-- Settles O8: `exec_total` names the next state of every instruction. -/
theorem everyInstructionGivesANextState : Obligations.EveryInstructionGivesANextState := by
  unfold Obligations.EveryInstructionGivesANextState
  intro i s
  obtain ⟨t, hx, -⟩ := exec_total i s
  exact ⟨t, hx⟩

end Sys2Proof.Machine
end

section
/-! When two words agree on the bits of a mask (30_encoding.md R86, R88), said with the fields of R81. -/

namespace Sys2Proof.Machine

/-- The bits `hi` down to `lo` of a word, as a mask. -/
def fieldBits (hi lo : Nat) : Word := (BitVec.allOnes (hi - lo + 1)).setWidth 16 <<< lo

theorem getLsbD_fieldBits_iff {hi lo k : Nat} :
    (fieldBits hi lo).getLsbD k = true ↔ k < 16 ∧ lo ≤ k ∧ k - lo < hi - lo + 1 := by
  simp only [fieldBits, BitVec.getLsbD_shiftLeft, BitVec.getLsbD_setWidth, BitVec.getLsbD_allOnes, Bool.and_eq_true,
    Bool.not_eq_true', decide_eq_true_eq, decide_eq_false_iff_not]
  omega

/-- To agree on a mask is to agree on each of its bits. -/
theorem and_eq_and_iff {w u m : Word} :
    w &&& m = u &&& m ↔ ∀ k, m.getLsbD k = true → w.getLsbD k = u.getLsbD k := by
  refine ⟨fun h k hk => ?_, fun h => BitVec.eq_of_getLsbD_eq fun k _ => ?_⟩
  · simpa [hk] using congrArg (·.getLsbD k) h
  · cases hk : m.getLsbD k with
    | false => simp [hk]
    | true => simp [hk, h k hk]

theorem and_or_eq_iff {w u m n : Word} :
    w &&& (m ||| n) = u &&& (m ||| n) ↔ w &&& m = u &&& m ∧ w &&& n = u &&& n := by
  simp only [and_eq_and_iff, BitVec.getLsbD_or, Bool.or_eq_true, or_imp, forall_and]

theorem and_fieldBits_eq_iff {w u : Word} (hi lo : Nat) :
    w &&& fieldBits hi lo = u &&& fieldBits hi lo ↔ w.extractLsb hi lo = u.extractLsb hi lo := by
  simp only [and_eq_and_iff, getLsbD_fieldBits_iff]
  refine ⟨fun h => BitVec.eq_of_getLsbD_eq fun k hk => ?_, fun h k ⟨_, hlo, hhi⟩ => ?_⟩
  · simp only [BitVec.getLsbD_extractLsb]
    by_cases h16 : lo + k < 16
    · rw [h (lo + k) ⟨h16, by omega, by omega⟩]
    · simp [BitVec.getLsbD_of_ge _ _ (Nat.le_of_not_lt h16)]
  · have hbit := congrArg (·.getLsbD (k - lo)) h
    simpa [BitVec.getLsbD_extractLsb, hhi, Nat.add_sub_cancel' hlo] using hbit

theorem and_bit_eq_iff {w u : Word} {k : Nat} (hk : k < 16) :
    w &&& fieldBits k k = u &&& fieldBits k k ↔ w.getLsbD k = u.getLsbD k := by
  have hmask (j : Nat) : (fieldBits k k).getLsbD j = true ↔ j = k := by
    rw [getLsbD_fieldBits_iff]
    omega
  simp only [and_eq_and_iff, hmask, forall_eq]

/-! The four masks that the rows have (R86). `c` stands for a row's `match`, which has no bit outside the mask. -/

theorem and_opcode_eq_iff {w : Word} (c : Word) (hc : c &&& 0xF000 = c := by rfl) :
    w &&& 0xF000 = c ↔ opcodeOf w = opcodeOf c := by
  conv_lhs => rw [← hc]
  exact and_fieldBits_eq_iff 15 12

theorem and_opcode_F_eq_iff {w : Word} (c : Word) (hc : c &&& 0xF020 = c := by rfl) :
    w &&& 0xF020 = c ↔ opcodeOf w = opcodeOf c ∧ fieldF w = fieldF c := by
  conv_lhs => rw [← hc]
  exact and_or_eq_iff (m := 0xF000) (n := 0x0020) |>.trans
    (and_congr (and_fieldBits_eq_iff 15 12) (and_bit_eq_iff (k := 5) (by decide)))

theorem and_opcode_L_eq_iff {w : Word} (c : Word) (hc : c &&& 0xF800 = c := by rfl) :
    w &&& 0xF800 = c ↔ opcodeOf w = opcodeOf c ∧ fieldL w = fieldL c := by
  conv_lhs => rw [← hc]
  exact and_or_eq_iff (m := 0xF000) (n := 0x0800) |>.trans
    (and_congr (and_fieldBits_eq_iff 15 12) (and_bit_eq_iff (k := 11) (by decide)))

theorem and_opcode_vect8_eq_iff {w : Word} (c : Word) (hc : c &&& 0xF0FF = c := by rfl) :
    w &&& 0xF0FF = c ↔ opcodeOf w = opcodeOf c ∧ fieldVect8 w = fieldVect8 c := by
  conv_lhs => rw [← hc]
  exact and_or_eq_iff (m := 0xF000) (n := 0x00FF) |>.trans
    (and_congr (and_fieldBits_eq_iff 15 12) (and_fieldBits_eq_iff 7 0))

end Sys2Proof.Machine
end

section
/-! The row a word selects (R86, R91), and the decoder as that row with the operands read from the word. -/

namespace Sys2Proof.Machine

/-- `w` selects the row of `i` by match and mask, the TRAP row only for a vector that has no row of its own. -/
def SelectsRow (w : Word) (i : Instr) : Prop :=
  w &&& i.rowMask = i.rowMatch ∧ ∀ v, i = .trap v → trapVectorNamed (fieldVect8 w) = false

/-- The row of `i`, with the operands that the fields of `w` give. -/
def rowOperands (w : Word) : Instr → Instr
  | .br _ _ => .br (fieldNzp w) (fieldOff9 w)
  | .addReg _ _ _ => .addReg (fieldDR w) (fieldSR1 w) (fieldSR2 w)
  | .addImm _ _ _ => .addImm (fieldDR w) (fieldSR1 w) (fieldImm5 w)
  | .ld _ _ => .ld (fieldDR w) (fieldOff9 w)
  | .st _ _ => .st (fieldDR w) (fieldOff9 w)
  | .jsrr _ => .jsrr (fieldSR1 w)
  | .jsr _ => .jsr (fieldOff11 w)
  | .andReg _ _ _ => .andReg (fieldDR w) (fieldSR1 w) (fieldSR2 w)
  | .andImm _ _ _ => .andImm (fieldDR w) (fieldSR1 w) (fieldImm5 w)
  | .ldr _ _ _ => .ldr (fieldDR w) (fieldSR1 w) (fieldOff6 w)
  | .str _ _ _ => .str (fieldDR w) (fieldSR1 w) (fieldOff6 w)
  | .rti => .rti
  | .notReg _ _ => .notReg (fieldDR w) (fieldSR1 w)
  | .ldi _ _ => .ldi (fieldDR w) (fieldOff9 w)
  | .sti _ _ => .sti (fieldDR w) (fieldOff9 w)
  | .jmp _ => .jmp (fieldSR1 w)
  | .res => .res
  | .lea _ _ => .lea (fieldDR w) (fieldOff9 w)
  | .getc => .getc
  | .outChar => .outChar
  | .puts => .puts
  | .inChar => .inChar
  | .putsp => .putsp
  | .halt => .halt
  | .trap _ => .trap (fieldVect8 w)

@[simp] theorem rowMatch_rowOperands (w : Word) (i : Instr) : (rowOperands w i).rowMatch = i.rowMatch := by
  cases i <;> rfl

@[simp] theorem rowMask_rowOperands (w : Word) (i : Instr) : (rowOperands w i).rowMask = i.rowMask := by
  cases i <;> rfl

/-- R86, R87: a word has one decoding, that of the row it selects. -/
theorem decode_eq_rowOperands {w : Word} {i : Instr} (h : SelectsRow w i) : decode w = rowOperands w i := by
  obtain ⟨hrow, hvect⟩ := h
  cases i with
  | br => exact decode_op0 w ((and_opcode_eq_iff 0x0000).1 hrow)
  | ld => exact decode_op2 w ((and_opcode_eq_iff 0x2000).1 hrow)
  | st => exact decode_op3 w ((and_opcode_eq_iff 0x3000).1 hrow)
  | ldr => exact decode_op6 w ((and_opcode_eq_iff 0x6000).1 hrow)
  | str => exact decode_op7 w ((and_opcode_eq_iff 0x7000).1 hrow)
  | rti => exact decode_op8 w ((and_opcode_eq_iff 0x8000).1 hrow)
  | notReg => exact decode_op9 w ((and_opcode_eq_iff 0x9000).1 hrow)
  | ldi => exact decode_opA w ((and_opcode_eq_iff 0xA000).1 hrow)
  | sti => exact decode_opB w ((and_opcode_eq_iff 0xB000).1 hrow)
  | jmp => exact decode_opC w ((and_opcode_eq_iff 0xC000).1 hrow)
  | res => exact decode_opD w ((and_opcode_eq_iff 0xD000).1 hrow)
  | lea => exact decode_opE w ((and_opcode_eq_iff 0xE000).1 hrow)
  | trap v =>
    exact (decode_opF w ((and_opcode_eq_iff 0xF000).1 hrow)).trans (decodeTrap_other (hvect v rfl))
  | addReg =>
    obtain ⟨hop, hF⟩ := (and_opcode_F_eq_iff 0x1000).1 hrow
    rw [decode_op1 w hop, hF]
    rfl
  | addImm =>
    obtain ⟨hop, hF⟩ := (and_opcode_F_eq_iff 0x1020).1 hrow
    rw [decode_op1 w hop, hF]
    rfl
  | andReg =>
    obtain ⟨hop, hF⟩ := (and_opcode_F_eq_iff 0x5000).1 hrow
    rw [decode_op5 w hop, hF]
    rfl
  | andImm =>
    obtain ⟨hop, hF⟩ := (and_opcode_F_eq_iff 0x5020).1 hrow
    rw [decode_op5 w hop, hF]
    rfl
  | jsrr =>
    obtain ⟨hop, hL⟩ := (and_opcode_L_eq_iff 0x4000).1 hrow
    rw [decode_op4 w hop, hL]
    rfl
  | jsr =>
    obtain ⟨hop, hL⟩ := (and_opcode_L_eq_iff 0x4800).1 hrow
    rw [decode_op4 w hop, hL]
    rfl
  | getc | outChar | puts | inChar | putsp | halt =>
    obtain ⟨hop, hv⟩ := (and_opcode_vect8_eq_iff _).1 hrow
    rw [decode_opF w hop, hv]
    rfl

theorem trapVectorNamed_eq_false {v : BitVec 8} (h0 : v ≠ 0x20) (h1 : v ≠ 0x21) (h2 : v ≠ 0x22) (h3 : v ≠ 0x23)
    (h4 : v ≠ 0x24) (h5 : v ≠ 0x25) : trapVectorNamed v = false := by
  simp only [trapVectorNamed, Bool.and_eq_false_iff, decide_eq_false_iff_not]
  bv_omega

/-- The dispatch of a TRAP word on its vector (R91). -/
theorem selectsRow_decodeTrap {w : Word} (hop : opcodeOf w = 0xF) : SelectsRow w (decodeTrap (fieldVect8 w)) := by
  unfold decodeTrap
  split_ifs with h0 h1 h2 h3 h4 h5
  · exact ⟨(and_opcode_vect8_eq_iff 0xF020).2 ⟨hop, h0⟩, nofun⟩
  · exact ⟨(and_opcode_vect8_eq_iff 0xF021).2 ⟨hop, h1⟩, nofun⟩
  · exact ⟨(and_opcode_vect8_eq_iff 0xF022).2 ⟨hop, h2⟩, nofun⟩
  · exact ⟨(and_opcode_vect8_eq_iff 0xF023).2 ⟨hop, h3⟩, nofun⟩
  · exact ⟨(and_opcode_vect8_eq_iff 0xF024).2 ⟨hop, h4⟩, nofun⟩
  · exact ⟨(and_opcode_vect8_eq_iff 0xF025).2 ⟨hop, h5⟩, nofun⟩
  · exact ⟨(and_opcode_eq_iff 0xF000).2 hop, fun _ _ => trapVectorNamed_eq_false h0 h1 h2 h3 h4 h5⟩

/-- R86, R87: every word selects a row, that of its decoding. -/
theorem selectsRow_decode (w : Word) : SelectsRow w (decode w) := by
  obtain e | e | e | e | e | e | e | e | e | e | e | e | e | e | e | e := opcode_cases (opcodeOf w)
  · rw [decode_op0 w e]; exact ⟨(and_opcode_eq_iff 0x0000).2 e, nofun⟩
  · rw [decode_op1 w e]
    split
    · next hF => exact ⟨(and_opcode_F_eq_iff 0x1020).2 ⟨e, hF⟩, nofun⟩
    · next hF => exact ⟨(and_opcode_F_eq_iff 0x1000).2 ⟨e, Bool.eq_false_iff.2 hF⟩, nofun⟩
  · rw [decode_op2 w e]; exact ⟨(and_opcode_eq_iff 0x2000).2 e, nofun⟩
  · rw [decode_op3 w e]; exact ⟨(and_opcode_eq_iff 0x3000).2 e, nofun⟩
  · rw [decode_op4 w e]
    split
    · next hL => exact ⟨(and_opcode_L_eq_iff 0x4800).2 ⟨e, hL⟩, nofun⟩
    · next hL => exact ⟨(and_opcode_L_eq_iff 0x4000).2 ⟨e, Bool.eq_false_iff.2 hL⟩, nofun⟩
  · rw [decode_op5 w e]
    split
    · next hF => exact ⟨(and_opcode_F_eq_iff 0x5020).2 ⟨e, hF⟩, nofun⟩
    · next hF => exact ⟨(and_opcode_F_eq_iff 0x5000).2 ⟨e, Bool.eq_false_iff.2 hF⟩, nofun⟩
  · rw [decode_op6 w e]; exact ⟨(and_opcode_eq_iff 0x6000).2 e, nofun⟩
  · rw [decode_op7 w e]; exact ⟨(and_opcode_eq_iff 0x7000).2 e, nofun⟩
  · rw [decode_op8 w e]; exact ⟨(and_opcode_eq_iff 0x8000).2 e, nofun⟩
  · rw [decode_op9 w e]; exact ⟨(and_opcode_eq_iff 0x9000).2 e, nofun⟩
  · rw [decode_opA w e]; exact ⟨(and_opcode_eq_iff 0xA000).2 e, nofun⟩
  · rw [decode_opB w e]; exact ⟨(and_opcode_eq_iff 0xB000).2 e, nofun⟩
  · rw [decode_opC w e]; exact ⟨(and_opcode_eq_iff 0xC000).2 e, nofun⟩
  · rw [decode_opD w e]; exact ⟨(and_opcode_eq_iff 0xD000).2 e, nofun⟩
  · rw [decode_opE w e]; exact ⟨(and_opcode_eq_iff 0xE000).2 e, nofun⟩
  · rw [decode_opF w e]; exact selectsRow_decodeTrap e

theorem wf_decode (w : Word) : (decode w).wf = true := by
  have hsel : SelectsRow w (decode w) := selectsRow_decode w
  have hread : decode w = rowOperands w (decode w) := decode_eq_rowOperands hsel
  generalize decode w = i at hsel hread
  cases i with
  | trap v =>
    obtain rfl : v = fieldVect8 w := Instr.trap.inj hread
    simp [Instr.wf, hsel.2 _ rfl]
  | _ => rfl

/-- Settles O3: `selectsRow_decode` gives the row and `decode_eq_rowOperands` says that no other is selected. -/
theorem everyWordSelectsExactlyOneRow : Obligations.EveryWordSelectsExactlyOneRow := by
  unfold Obligations.EveryWordSelectsExactlyOneRow
  intro w
  refine ⟨(selectsRow_decode w).1, fun i _ hrow htrap => ?_⟩
  have hsel : SelectsRow w i := ⟨hrow, fun v hv => htrap (by rw [hv]; rfl)⟩
  simp [decode_eq_rowOperands hsel]

end Sys2Proof.Machine
end

section
/-! The encoder against the decoder: the row and the fields of an encoded word (R82, R86). -/

namespace Sys2Proof.Machine

/-! A field of a word, read off the word's number. -/

theorem extractLsb_eq_ofNat {w : Word} {hi lo n : Nat} (h : w.toNat / 2 ^ lo % 2 ^ (hi - lo + 1) = n) :
    w.extractLsb hi lo = BitVec.ofNat (hi - lo + 1) n := by
  rw [← h, ← extractLsb_toNat, BitVec.ofNat_toNat, BitVec.setWidth_eq]

theorem fieldDR_eq {w : Word} (r : Reg) (h : w.toNat / 512 % 8 = r.val) : fieldDR w = r :=
  Fin.ext ((fieldDR_val w).trans h)
theorem fieldSR1_eq {w : Word} (r : Reg) (h : w.toNat / 64 % 8 = r.val) : fieldSR1 w = r :=
  Fin.ext ((fieldSR1_val w).trans h)
theorem fieldSR2_eq {w : Word} (r : Reg) (h : w.toNat % 8 = r.val) : fieldSR2 w = r :=
  Fin.ext ((fieldSR2_val w).trans h)
theorem fieldNzp_eq {w : Word} (x : BitVec 3) (h : w.toNat / 512 % 8 = x.toNat) : fieldNzp w = x :=
  BitVec.eq_of_toNat_eq ((fieldNzp_toNat w).trans h)
theorem fieldImm5_eq {w : Word} (x : BitVec 5) (h : w.toNat % 32 = x.toNat) : fieldImm5 w = x :=
  BitVec.eq_of_toNat_eq ((fieldImm5_toNat w).trans h)
theorem fieldOff6_eq {w : Word} (x : BitVec 6) (h : w.toNat % 64 = x.toNat) : fieldOff6 w = x :=
  BitVec.eq_of_toNat_eq ((fieldOff6_toNat w).trans h)
theorem fieldOff9_eq {w : Word} (x : BitVec 9) (h : w.toNat % 512 = x.toNat) : fieldOff9 w = x :=
  BitVec.eq_of_toNat_eq ((fieldOff9_toNat w).trans h)
theorem fieldOff11_eq {w : Word} (x : BitVec 11) (h : w.toNat % 2048 = x.toNat) : fieldOff11 w = x :=
  BitVec.eq_of_toNat_eq ((fieldOff11_toNat w).trans h)
theorem fieldVect8_eq {w : Word} (x : BitVec 8) (h : w.toNat % 256 = x.toNat) : fieldVect8 w = x :=
  BitVec.eq_of_toNat_eq ((fieldVect8_toNat w).trans h)

/-- No operand is lost in the word of an instruction. -/
theorem rowOperands_encode (i : Instr) : rowOperands (encode i) i = i := by
  cases i with
  | br nzp off9 =>
    have h := encode_br_toNat nzp off9
    rw [rowOperands, fieldNzp_eq nzp (by omega), fieldOff9_eq off9 (by omega)]
  | addReg dr sr1 sr2 =>
    have h := encode_addReg_toNat dr sr1 sr2
    rw [rowOperands, fieldDR_eq dr (by omega), fieldSR1_eq sr1 (by omega), fieldSR2_eq sr2 (by omega)]
  | addImm dr sr1 imm5 =>
    have h := encode_addImm_toNat dr sr1 imm5
    rw [rowOperands, fieldDR_eq dr (by omega), fieldSR1_eq sr1 (by omega), fieldImm5_eq imm5 (by omega)]
  | ld dr off9 =>
    have h := encode_ld_toNat dr off9
    rw [rowOperands, fieldDR_eq dr (by omega), fieldOff9_eq off9 (by omega)]
  | st sr off9 =>
    have h := encode_st_toNat sr off9
    rw [rowOperands, fieldDR_eq sr (by omega), fieldOff9_eq off9 (by omega)]
  | jsrr baseR =>
    have h := encode_jsrr_toNat baseR
    rw [rowOperands, fieldSR1_eq baseR (by omega)]
  | jsr off11 =>
    have h := encode_jsr_toNat off11
    rw [rowOperands, fieldOff11_eq off11 (by omega)]
  | andReg dr sr1 sr2 =>
    have h := encode_andReg_toNat dr sr1 sr2
    rw [rowOperands, fieldDR_eq dr (by omega), fieldSR1_eq sr1 (by omega), fieldSR2_eq sr2 (by omega)]
  | andImm dr sr1 imm5 =>
    have h := encode_andImm_toNat dr sr1 imm5
    rw [rowOperands, fieldDR_eq dr (by omega), fieldSR1_eq sr1 (by omega), fieldImm5_eq imm5 (by omega)]
  | ldr dr baseR off6 =>
    have h := encode_ldr_toNat dr baseR off6
    rw [rowOperands, fieldDR_eq dr (by omega), fieldSR1_eq baseR (by omega), fieldOff6_eq off6 (by omega)]
  | str sr baseR off6 =>
    have h := encode_str_toNat sr baseR off6
    rw [rowOperands, fieldDR_eq sr (by omega), fieldSR1_eq baseR (by omega), fieldOff6_eq off6 (by omega)]
  | notReg dr sr =>
    have h := encode_notReg_toNat dr sr
    rw [rowOperands, fieldDR_eq dr (by omega), fieldSR1_eq sr (by omega)]
  | ldi dr off9 =>
    have h := encode_ldi_toNat dr off9
    rw [rowOperands, fieldDR_eq dr (by omega), fieldOff9_eq off9 (by omega)]
  | sti sr off9 =>
    have h := encode_sti_toNat sr off9
    rw [rowOperands, fieldDR_eq sr (by omega), fieldOff9_eq off9 (by omega)]
  | jmp baseR =>
    have h := encode_jmp_toNat baseR
    rw [rowOperands, fieldSR1_eq baseR (by omega)]
  | lea dr off9 =>
    have h := encode_lea_toNat dr off9
    rw [rowOperands, fieldDR_eq dr (by omega), fieldOff9_eq off9 (by omega)]
  | trap v =>
    have h := encode_trap_toNat v
    rw [rowOperands, fieldVect8_eq v (by omega)]
  | rti | res | getc | outChar | puts | inChar | putsp | halt => rfl

open Laws in
/-- The word of an instruction has the row's opcode, flag and vector, so it selects that row. -/
theorem selectsRow_encode {i : Instr} (hwf : i.wf = true) : SelectsRow (encode i) i := by
  cases i with
  | br nzp off9 => exact ⟨(and_opcode_eq_iff 0x0000).2 (EncodedOpcode.br nzp off9), nofun⟩
  | addReg dr sr1 sr2 =>
    have h := encode_addReg_toNat dr sr1 sr2
    exact ⟨(and_opcode_F_eq_iff 0x1000).2
      ⟨EncodedOpcode.addReg dr sr1 sr2, (fieldF_eq _).trans (decide_eq_false (by omega))⟩, nofun⟩
  | addImm dr sr1 imm5 =>
    have h := encode_addImm_toNat dr sr1 imm5
    exact ⟨(and_opcode_F_eq_iff 0x1020).2
      ⟨EncodedOpcode.addImm dr sr1 imm5, (fieldF_eq _).trans (decide_eq_true (by omega))⟩, nofun⟩
  | ld dr off9 => exact ⟨(and_opcode_eq_iff 0x2000).2 (EncodedOpcode.ld dr off9), nofun⟩
  | st sr off9 => exact ⟨(and_opcode_eq_iff 0x3000).2 (EncodedOpcode.st sr off9), nofun⟩
  | jsrr baseR =>
    have h := encode_jsrr_toNat baseR
    exact ⟨(and_opcode_L_eq_iff 0x4000).2
      ⟨EncodedOpcode.jsrr baseR, (fieldL_eq _).trans (decide_eq_false (by omega))⟩, nofun⟩
  | jsr off11 =>
    have h := encode_jsr_toNat off11
    exact ⟨(and_opcode_L_eq_iff 0x4800).2
      ⟨EncodedOpcode.jsr off11, (fieldL_eq _).trans (decide_eq_true (by omega))⟩, nofun⟩
  | andReg dr sr1 sr2 =>
    have h := encode_andReg_toNat dr sr1 sr2
    exact ⟨(and_opcode_F_eq_iff 0x5000).2
      ⟨EncodedOpcode.andReg dr sr1 sr2, (fieldF_eq _).trans (decide_eq_false (by omega))⟩, nofun⟩
  | andImm dr sr1 imm5 =>
    have h := encode_andImm_toNat dr sr1 imm5
    exact ⟨(and_opcode_F_eq_iff 0x5020).2
      ⟨EncodedOpcode.andImm dr sr1 imm5, (fieldF_eq _).trans (decide_eq_true (by omega))⟩, nofun⟩
  | ldr dr baseR off6 => exact ⟨(and_opcode_eq_iff 0x6000).2 (EncodedOpcode.ldr dr baseR off6), nofun⟩
  | str sr baseR off6 => exact ⟨(and_opcode_eq_iff 0x7000).2 (EncodedOpcode.str sr baseR off6), nofun⟩
  | notReg dr sr => exact ⟨(and_opcode_eq_iff 0x9000).2 (EncodedOpcode.notReg dr sr), nofun⟩
  | ldi dr off9 => exact ⟨(and_opcode_eq_iff 0xA000).2 (EncodedOpcode.ldi dr off9), nofun⟩
  | sti sr off9 => exact ⟨(and_opcode_eq_iff 0xB000).2 (EncodedOpcode.sti sr off9), nofun⟩
  | jmp baseR => exact ⟨(and_opcode_eq_iff 0xC000).2 (EncodedOpcode.jmp baseR), nofun⟩
  | lea dr off9 => exact ⟨(and_opcode_eq_iff 0xE000).2 (EncodedOpcode.lea dr off9), nofun⟩
  | rti | res | getc | outChar | puts | inChar | putsp | halt => exact ⟨rfl, nofun⟩
  | trap v =>
    have h := encode_trap_toNat v
    refine ⟨(and_opcode_eq_iff 0xF000).2 (EncodedOpcode.trap v), fun _ _ => ?_⟩
    rw [fieldVect8_eq v (by omega)]
    simpa [Instr.wf] using hwf

/-- Settles O1: the word of `i` selects the row of `i`, and its fields are the operands of `i`. -/
theorem decodeOfEncodeGivesTheInstruction : Obligations.DecodeOfEncodeGivesTheInstruction := by
  unfold Obligations.DecodeOfEncodeGivesTheInstruction
  exact fun i hwf => (decode_eq_rowOperands (selectsRow_encode hwf)).trans (rowOperands_encode i)

end Sys2Proof.Machine
end

section
/-! The bits an instruction examines are its row's and its operands' (R82, R88). -/

namespace Sys2Proof.Machine

/-- The bits of the word that the operands of `i` are read from. -/
def operandBits : Instr → Word
  | .br _ _ => fieldBits 11 9 ||| fieldBits 8 0
  | .addReg _ _ _ => fieldBits 11 9 ||| fieldBits 8 6 ||| fieldBits 2 0
  | .addImm _ _ _ => fieldBits 11 9 ||| fieldBits 8 6 ||| fieldBits 4 0
  | .ld _ _ => fieldBits 11 9 ||| fieldBits 8 0
  | .st _ _ => fieldBits 11 9 ||| fieldBits 8 0
  | .jsrr _ => fieldBits 8 6
  | .jsr _ => fieldBits 10 0
  | .andReg _ _ _ => fieldBits 11 9 ||| fieldBits 8 6 ||| fieldBits 2 0
  | .andImm _ _ _ => fieldBits 11 9 ||| fieldBits 8 6 ||| fieldBits 4 0
  | .ldr _ _ _ => fieldBits 11 9 ||| fieldBits 8 6 ||| fieldBits 5 0
  | .str _ _ _ => fieldBits 11 9 ||| fieldBits 8 6 ||| fieldBits 5 0
  | .notReg _ _ => fieldBits 11 9 ||| fieldBits 8 6
  | .ldi _ _ => fieldBits 11 9 ||| fieldBits 8 0
  | .sti _ _ => fieldBits 11 9 ||| fieldBits 8 0
  | .jmp _ => fieldBits 8 6
  | .lea _ _ => fieldBits 11 9 ||| fieldBits 8 0
  | .trap _ => fieldBits 7 0
  | .rti | .res | .getc | .outChar | .puts | .inChar | .putsp | .halt => 0

theorem fieldDR_eq_iff {w u : Word} : fieldDR w = fieldDR u ↔ w.extractLsb 11 9 = u.extractLsb 11 9 :=
  BitVec.toFin_inj
theorem fieldSR1_eq_iff {w u : Word} : fieldSR1 w = fieldSR1 u ↔ w.extractLsb 8 6 = u.extractLsb 8 6 :=
  BitVec.toFin_inj
theorem fieldSR2_eq_iff {w u : Word} : fieldSR2 w = fieldSR2 u ↔ w.extractLsb 2 0 = u.extractLsb 2 0 :=
  BitVec.toFin_inj

/-- Each operand is one field, so two words give a row the same operands when they agree on the operands' bits. -/
theorem rowOperands_eq_iff (w u : Word) (i : Instr) :
    rowOperands w i = rowOperands u i ↔ w &&& operandBits i = u &&& operandBits i := by
  cases i <;>
    simp [rowOperands, operandBits, and_or_eq_iff, and_fieldBits_eq_iff, fieldDR_eq_iff, fieldSR1_eq_iff,
      fieldSR2_eq_iff, fieldNzp, fieldImm5, fieldOff6, fieldOff9, fieldOff11, fieldVect8, and_assoc]

/-- STI alone has operands whose bits it does not examine (R137). -/
theorem examinedBits_eq {i : Instr} (hi : ∀ sr off9, i ≠ .sti sr off9) :
    i.examinedBits = i.rowMask ||| operandBits i := by
  cases i with
  | sti sr off9 => exact absurd rfl (hi sr off9)
  | _ => simp [Instr.examinedBits, Instr.rowMask, operandBits, fieldBits]

theorem and_examinedBits_eq_iff {w u : Word} {i : Instr} (hi : ∀ sr off9, i ≠ .sti sr off9) :
    w &&& i.examinedBits = u &&& i.examinedBits ↔
      w &&& i.rowMask = u &&& i.rowMask ∧ rowOperands w i = rowOperands u i := by
  rw [examinedBits_eq hi, and_or_eq_iff, rowOperands_eq_iff]

theorem and_examinedBits_of_rowOperands_eq {w u : Word} {i : Instr} (hrow : w &&& i.rowMask = u &&& i.rowMask)
    (hops : rowOperands w i = rowOperands u i) : w &&& i.examinedBits = u &&& i.examinedBits := by
  cases i with
  | sti => exact hrow
  | _ => exact (and_examinedBits_eq_iff (by nofun)).2 ⟨hrow, hops⟩

theorem and_rowMask_of_and_examinedBits {w u : Word} {i : Instr}
    (h : w &&& i.examinedBits = u &&& i.examinedBits) : w &&& i.rowMask = u &&& i.rowMask := by
  cases i with
  | sti => exact h
  | _ => exact ((and_examinedBits_eq_iff (by nofun)).1 h).1

/-- The meaning of STI reads none of its operands (R137); any other row has the same operands in both words. -/
theorem exec_rowOperands_of_and_examinedBits {w u : Word} {i : Instr}
    (h : w &&& i.examinedBits = u &&& i.examinedBits) (s : State) :
    exec (rowOperands w i) s = exec (rowOperands u i) s := by
  cases i with
  | sti => rfl
  | _ => rw [((and_examinedBits_eq_iff (by nofun)).1 h).2]

/-- A word's row, the guard of TRAP included, is read from examined bits. -/
theorem SelectsRow.of_and_examinedBits {w u : Word} {i : Instr} (hw : SelectsRow w i)
    (h : w &&& i.examinedBits = u &&& i.examinedBits) : SelectsRow u i := by
  obtain ⟨hrow, hvect⟩ := hw
  refine ⟨(and_rowMask_of_and_examinedBits h).symm.trans hrow, ?_⟩
  rintro v rfl
  have hv : fieldVect8 w = fieldVect8 u := Instr.trap.inj ((and_examinedBits_eq_iff (by nofun)).1 h).2
  exact hv ▸ hvect v rfl

/-- Settles O2: a word and the encoding of its decoding select one row and give it the same operands. -/
theorem encodeOfDecodeKeepsExaminedBits : Obligations.EncodeOfDecodeKeepsExaminedBits := by
  unfold Obligations.EncodeOfDecodeKeepsExaminedBits
  intro w
  have hsel : SelectsRow w (decode w) := selectsRow_decode w
  have henc : SelectsRow (encode (decode w)) (decode w) := selectsRow_encode (wf_decode w)
  have hops : rowOperands (encode (decode w)) (decode w) = rowOperands w (decode w) :=
    (rowOperands_encode _).trans (decode_eq_rowOperands hsel)
  exact ⟨wf_decode w, and_examinedBits_of_rowOperands_eq (henc.1.trans hsel.1.symm) hops⟩

theorem exec_decode_of_and_examinedBits {w u : Word} (h : w &&& (decode w).examinedBits = u &&& (decode w).examinedBits)
    (s : State) : exec (decode u) s = exec (decode w) s := by
  have hw : SelectsRow w (decode w) := selectsRow_decode w
  have hu : SelectsRow u (decode w) := hw.of_and_examinedBits h
  calc exec (decode u) s
    _ = exec (rowOperands u (decode w)) s := by rw [decode_eq_rowOperands hu]
    _ = exec (rowOperands w (decode w)) s := (exec_rowOperands_of_and_examinedBits h s).symm
    _ = exec (decode w) s := by rw [← decode_eq_rowOperands hw]

/-- Settles O4: the spare bits are outside the row and the operands, and the encoded word's number shows what stands
there. -/
theorem unexaminedBitsNeverMatter : Obligations.UnexaminedBitsNeverMatter := by
  unfold Obligations.UnexaminedBitsNeverMatter
  refine ⟨fun w u s h => exec_decode_of_and_examinedBits h s,
    fun dr sr1 sr2 => ?_, fun dr sr1 sr2 => ?_, fun dr sr => ?_,
    fun b => ⟨?_, ?_⟩, fun b => ⟨?_, ?_⟩, fun v => ?_⟩
  all_goals apply extractLsb_eq_ofNat
  · rw [encode_addReg_toNat]; omega
  · rw [encode_andReg_toNat]; omega
  · rw [encode_notReg_toNat]; omega
  · rw [encode_jmp_toNat]; omega
  · rw [encode_jmp_toNat]; omega
  · rw [encode_jsrr_toNat]; omega
  · rw [encode_jsrr_toNat]; omega
  · rw [encode_trap_toNat]; omega

/-- Settles O5: each of the fourteen words is decoded. -/
theorem writtenOutWordsDecode : Obligations.WrittenOutWordsDecode := by
  unfold Obligations.WrittenOutWordsDecode
  decide

end Sys2Proof.Machine
end

section
/-! ADD, AND and NOT (40_alu.md): each writes one value back to DR. -/

namespace Sys2Proof.Machine

/-! ## The write-back and the five operations -/

/-- R27 with its frame: DR holds the value, COND is the value's, and no other part of the state is touched. -/
theorem writeBack_effect (dr : Reg) (v : Word) (s : State) :
    (writeBack dr v s).reg dr = v ∧ CondFor v (writeBack dr v s).cond ∧ SameRegsBut [dr] s (writeBack dr v s) ∧
      (writeBack dr v s).pc = s.pc ∧ SameMemory s (writeBack dr v s) ∧ (writeBack dr v s).inq = s.inq ∧
      SameRun s (writeBack dr v s) := by
  refine ⟨by simp, condFor_condOf v, fun r hr => ?_, rfl, fun _ => rfl, rfl, rfl, rfl, rfl, rfl⟩
  have hne : r ≠ dr := fun e => hr (List.mem_singleton.2 e)
  simp [hne]

theorem exec_addReg (dr sr1 sr2 : Reg) (s : State) :
    exec (.addReg dr sr1 sr2) s = .next (writeBack dr (s.reg sr1 + s.reg sr2) s) := rfl

theorem exec_addImm (dr sr1 : Reg) (imm5 : BitVec 5) (s : State) :
    exec (.addImm dr sr1 imm5) s = .next (writeBack dr (s.reg sr1 + sext imm5) s) := rfl

theorem exec_andReg (dr sr1 sr2 : Reg) (s : State) :
    exec (.andReg dr sr1 sr2) s = .next (writeBack dr (s.reg sr1 &&& s.reg sr2) s) := rfl

theorem exec_andImm (dr sr1 : Reg) (imm5 : BitVec 5) (s : State) :
    exec (.andImm dr sr1 imm5) s = .next (writeBack dr (s.reg sr1 &&& sext imm5) s) := rfl

theorem exec_notReg (dr sr : Reg) (s : State) :
    exec (.notReg dr sr) s = .next (writeBack dr (~~~ s.reg sr) s) := rfl

/-! ## The two forms, told apart by the immediate flag (R84, R85) -/

theorem decode_op1_register {w : Word} (hop : opcodeOf w = 0x1) (hF : fieldF w = false) :
    decode w = .addReg (fieldDR w) (fieldSR1 w) (fieldSR2 w) := by
  simp [decode_op1 w hop, hF]

theorem decode_op1_immediate {w : Word} (hop : opcodeOf w = 0x1) (hF : fieldF w = true) :
    decode w = .addImm (fieldDR w) (fieldSR1 w) (fieldImm5 w) := by
  simp [decode_op1 w hop, hF]

theorem decode_op5_register {w : Word} (hop : opcodeOf w = 0x5) (hF : fieldF w = false) :
    decode w = .andReg (fieldDR w) (fieldSR1 w) (fieldSR2 w) := by
  simp [decode_op5 w hop, hF]

theorem decode_op5_immediate {w : Word} (hop : opcodeOf w = 0x5) (hF : fieldF w = true) :
    decode w = .andImm (fieldDR w) (fieldSR1 w) (fieldImm5 w) := by
  simp [decode_op5 w hop, hF]

/-! ## The obligations -/

/-- Settles O17: the sum is written back, so the source registers are read before DR changes. -/
theorem addRegisterForm : Obligations.AddRegisterForm := by
  unfold Obligations.AddRegisterForm
  exact ⟨fun w hop hF => decode_op1_register hop hF,
    fun dr sr1 sr2 s => ⟨_, exec_addReg dr sr1 sr2 s, writeBack_effect dr (s.reg sr1 + s.reg sr2) s⟩⟩

/-- Settles O18: the sum with the sign-extended immediate is written back. -/
theorem addImmediateForm : Obligations.AddImmediateForm := by
  unfold Obligations.AddImmediateForm
  exact ⟨fun w hop hF => decode_op1_immediate hop hF,
    fun dr sr1 imm5 s => ⟨_, exec_addImm dr sr1 imm5 s, writeBack_effect dr (s.reg sr1 + sext imm5) s⟩⟩

/-- Settles O19: the bitwise AND is written back. -/
theorem andRegisterForm : Obligations.AndRegisterForm := by
  unfold Obligations.AndRegisterForm
  exact ⟨fun w hop hF => decode_op5_register hop hF,
    fun dr sr1 sr2 s => ⟨_, exec_andReg dr sr1 sr2 s, writeBack_effect dr (s.reg sr1 &&& s.reg sr2) s⟩⟩

/-- Settles O20: the bitwise AND with the sign-extended immediate is written back. -/
theorem andImmediateForm : Obligations.AndImmediateForm := by
  unfold Obligations.AndImmediateForm
  exact ⟨fun w hop hF => decode_op5_immediate hop hF,
    fun dr sr1 imm5 s => ⟨_, exec_andImm dr sr1 imm5 s, writeBack_effect dr (s.reg sr1 &&& sext imm5) s⟩⟩

/-- Settles O21: the complement is written back; it is the difference from 0xFFFF because 0xFFFF is all ones. -/
theorem notComplements : Obligations.NotComplements := by
  unfold Obligations.NotComplements
  refine ⟨decode_op9, fun dr sr s => ?_⟩
  have hcompl : 0xFFFF - s.reg sr = ~~~ s.reg sr := BitVec.allOnes_sub_eq_not (s.reg sr)
  obtain ⟨hval, hrest⟩ := writeBack_effect dr (~~~ s.reg sr) s
  exact ⟨_, exec_notReg dr sr s, hval, hval.trans hcompl.symm, hrest⟩

/-- Settles O22: both forms write back the same value. -/
theorem immediateAndRegisterFormsAgree : Obligations.ImmediateAndRegisterFormsAgree := by
  unfold Obligations.ImmediateAndRegisterFormsAgree
  intro dr sr1 sr2 imm5 s hsr2
  constructor
  · rw [exec_addImm, exec_addReg, hsr2]
  · rw [exec_andImm, exec_andReg, hsr2]

end Sys2Proof.Machine
end

section
/-! BR, JMP, JSR and JSRR (41_control.md): each writes PC, the two calls R7 as well. -/

namespace Sys2Proof.Machine

/-! ## The jumps and the calls -/

theorem exec_jmp (b : Reg) (s : State) : exec (.jmp b) s = .next (s.setPc (s.reg b)) := rfl

/-- A call to `target`, as JSR and JSRR make it: the old PC goes to R7. -/
def callTo (target : Word) (s : State) : State := (s.setReg 7 s.pc).setPc target

theorem exec_jsr (off11 : BitVec 11) (s : State) :
    exec (.jsr off11) s = .next (callTo (s.pc + sext off11) s) := rfl

/-- JSRR reads its base after R7 has the return address (D5), so the base R7 is the return address. -/
theorem exec_jsrr (b : Reg) (s : State) :
    exec (.jsrr b) s = .next (callTo (if b = 7 then s.pc else s.reg b) s) := by
  rw [← State.reg_setReg]
  rfl

@[simp] theorem callTo_reg (target : Word) (s : State) (r : Reg) :
    (callTo target s).reg r = if r = 7 then s.pc else s.reg r := by simp [callTo]

/-- What a call does (R123, R124): R7 holds the old PC, PC is the target, and nothing else changes. -/
theorem callTo_effect (target : Word) (s : State) :
    (callTo target s).reg 7 = s.pc ∧ (callTo target s).pc = target ∧ SameRegsBut [7] s (callTo target s) ∧
      (callTo target s).cond = s.cond ∧ SameMemory s (callTo target s) ∧ (callTo target s).inq = s.inq ∧
      SameRun s (callTo target s) := by
  refine ⟨by simp, rfl, fun r hr => ?_, rfl, fun _ => rfl, rfl, rfl, rfl, rfl, rfl⟩
  have hne : r ≠ 7 := fun e => hr (List.mem_singleton.2 e)
  simp [hne]

/-- R125's premise, from R123 and R124: both calls leave the return address in R7. -/
theorem call_links {call : Instr} {s t : State} (hcall : (∃ off11, call = .jsr off11) ∨ ∃ b, call = .jsrr b)
    (hx : exec call s = .next t) : t.reg 7 = s.pc := by
  obtain ⟨off11, rfl⟩ | ⟨b, rfl⟩ := hcall
  · cases (exec_jsr off11 s).symm.trans hx
    simp
  · cases (exec_jsrr b s).symm.trans hx
    simp

/-! ## The two calls, told apart by the long flag (R84, R85) -/

theorem decode_op4_long {w : Word} (hop : opcodeOf w = 0x4) (hL : fieldL w = true) :
    decode w = .jsr (fieldOff11 w) := by
  simp [decode_op4 w hop, hL]

theorem decode_op4_short {w : Word} (hop : opcodeOf w = 0x4) (hL : fieldL w = false) :
    decode w = .jsrr (fieldSR1 w) := by
  simp [decode_op4 w hop, hL]

/-! ## The obligations -/

/-- Settles O23: taken or not, BR writes PC only; `branchTaken` is the mask test of R121. -/
theorem branchTestsTheMask : Obligations.BranchTestsTheMask := by
  unfold Obligations.BranchTestsTheMask
  refine ⟨decode_op0, fun nzp off9 s => ?_⟩
  rw [exec_br]
  simp only [branchTaken, bne_iff_ne]
  rfl

/-- Settles O24. -/
theorem jumpGoesToBase : Obligations.JumpGoesToBase := by
  unfold Obligations.JumpGoesToBase
  exact ⟨decode_opC, exec_jmp⟩

/-- Settles O25: a call to the PC-relative target. -/
theorem jsrLinksAndJumpsRelative : Obligations.JsrLinksAndJumpsRelative := by
  unfold Obligations.JsrLinksAndJumpsRelative
  exact ⟨fun w hop hL => decode_op4_long hop hL,
    fun off11 s => ⟨_, exec_jsr off11 s, callTo_effect (s.pc + sext off11) s⟩⟩

/-- Settles O26: a call to the base, R7 being the return address by then. -/
theorem jsrrLinksBeforeReadingBase : Obligations.JsrrLinksBeforeReadingBase := by
  unfold Obligations.JsrrLinksBeforeReadingBase
  exact ⟨fun w hop hL => decode_op4_short hop hL,
    fun b s => ⟨_, exec_jsrr b s, callTo_effect (if b = 7 then s.pc else s.reg b) s⟩⟩

/-- Settles O27: the fetch in `u` leaves the registers alone, so JMP R7 goes to what the call put into R7. -/
theorem returnResumesAfterTheCall : Obligations.ReturnResumesAfterTheCall := by
  unfold Obligations.ReturnResumesAfterTheCall
  intro call s t u hcall hx hkept hready hpc hret
  have hstep : step u = exec (.jmp 7) (u.setPc (u.pc + 1)) :=
    stepRunsTheDecodedInstruction.1 u (.jmp 7) hready hpc hret
  exact ⟨_, hstep.trans (exec_jmp 7 _), hkept.trans (call_links hcall hx)⟩

end Sys2Proof.Machine
end

section
/-! LD, LDI, LDR, LEA, ST and STR (42_load_store.md): a load is a read and a write-back, LEA a write-back alone, a store
one cell written. -/

namespace Sys2Proof.Machine

/-! ## Loads -/

/-- A read changes no register, so what a state keeps of the registers after a read it keeps of those before. -/
theorem SameRegsBut.of_memRead {ds : List Reg} {a : Word} {s t : State} (h : SameRegsBut ds (memRead a s).2 t) :
    SameRegsBut ds s t :=
  fun r hr => (h r hr).trans (memRead_reg a s r)

/-- The same for status, output, routine and parameters. -/
theorem SameRun.of_memRead {a : Word} {s t : State} (h : SameRun (memRead a s).2 t) : SameRun s t := by
  obtain ⟨hstatus, hout, hroutine, hcfg⟩ := h
  exact ⟨hstatus.trans (memRead_status a s), hout.trans (memRead_out a s), hroutine.trans (memRead_routine a s),
    hcfg.trans (memRead_cfg a s)⟩

/-- What a load does (R131, R133): one read at `a`, whose word goes to DR and sets the flags, and nothing else. -/
theorem loadFrom_effect (dr : Reg) (a : Word) (s : State) :
    ReadEffect a s (loadFrom dr a s) (memRead a s).1 ∧ (loadFrom dr a s).reg dr = (memRead a s).1 ∧
      CondFor (memRead a s).1 (loadFrom dr a s).cond ∧ SameRegsBut [dr] s (loadFrom dr a s) ∧
      (loadFrom dr a s).pc = s.pc ∧ SameRun s (loadFrom dr a s) := by
  obtain ⟨hval, hcond, hregs, hpc, -, -, hrun⟩ := writeBack_effect dr (memRead a s).1 (memRead a s).2
  exact ⟨memRead_readEffect a s, hval, hcond, hregs.of_memRead, hpc.trans (memRead_pc a s), hrun.of_memRead⟩

theorem exec_ld (dr : Reg) (off9 : BitVec 9) (s : State) :
    exec (.ld dr off9) s = .next (loadFrom dr (s.pc + sext off9) s) := rfl

theorem exec_ldr (dr b : Reg) (off6 : BitVec 6) (s : State) :
    exec (.ldr dr b off6) s = .next (loadFrom dr (s.reg b + sext off6) s) := rfl

theorem exec_lea (dr : Reg) (off9 : BitVec 9) (s : State) :
    exec (.lea dr off9) s = .next (writeBack dr (s.pc + sext off9) s) := rfl

/-! ## Stores -/

/-- What a store does (R135, R136): the one cell is written, and nothing else. -/
theorem setCell_effect (a v : Word) (s : State) :
    StoredOnly a v s (s.setCell a v) ∧ SameRegsBut [] s (s.setCell a v) ∧ (s.setCell a v).cond = s.cond ∧
      (s.setCell a v).pc = s.pc ∧ (s.setCell a v).inq = s.inq ∧ SameRun s (s.setCell a v) :=
  ⟨fun b => State.cell_setCell s a b v, fun _ _ => rfl, rfl, rfl, rfl, rfl, rfl, rfl, rfl⟩

theorem memWrite_cell (a b v : Word) (s : State) : (memWrite a v s).cell b = if b = a then v else s.cell b :=
  State.cell_setCell s a b v

/-! ## The obligations -/

/-- Settles O31. -/
theorem ldLoadsPcRelative : Obligations.LdLoadsPcRelative := by
  unfold Obligations.LdLoadsPcRelative
  exact ⟨decode_op2, fun dr off9 s => ⟨_, _, exec_ld dr off9 s, loadFrom_effect dr (s.pc + sext off9) s⟩⟩

/-- Settles O32: a load at the pointer, begun in the state that the read of the pointer leaves. -/
theorem ldiLoadsThroughThePointer : Obligations.LdiLoadsThroughThePointer := by
  unfold Obligations.LdiLoadsThroughThePointer
  refine ⟨decode_opA, fun dr off9 s => ?_⟩
  have hpointer := memRead_readEffect (pcRel9 s off9) s
  obtain ⟨hdata, hval, hcond, hregs, hpc, hrun⟩ :=
    loadFrom_effect dr (memRead (pcRel9 s off9) s).1 (memRead (pcRel9 s off9) s).2
  exact ⟨_, _, _, _, exec_ldi dr off9 s, hpointer, hdata, hval, hcond, hregs.of_memRead,
    hpc.trans (memRead_pc _ s), hrun.of_memRead⟩

/-- Settles O33: the address is formed before DR changes, so DR may be the base. -/
theorem ldrLoadsBaseOffset : Obligations.LdrLoadsBaseOffset := by
  unfold Obligations.LdrLoadsBaseOffset
  exact ⟨decode_op6, fun dr b off6 s => ⟨_, _, exec_ldr dr b off6 s, loadFrom_effect dr (s.reg b + sext off6) s⟩⟩

/-- Settles O34: the address is written back without a read. -/
theorem leaGivesTheAddress : Obligations.LeaGivesTheAddress := by
  unfold Obligations.LeaGivesTheAddress
  exact ⟨decode_opE, fun dr off9 s => ⟨_, exec_lea dr off9 s, writeBack_effect dr (s.pc + sext off9) s⟩⟩

/-- Settles O35. -/
theorem stStoresPcRelative : Obligations.StStoresPcRelative := by
  unfold Obligations.StStoresPcRelative
  exact ⟨decode_op3, fun sr off9 s => ⟨_, exec_st sr off9 s, setCell_effect (pcRel9 s off9) (s.reg sr) s⟩⟩

/-- Settles O36. -/
theorem strStoresBaseOffset : Obligations.StrStoresBaseOffset := by
  unfold Obligations.StrStoresBaseOffset
  exact ⟨decode_op7, fun sr b off6 s => ⟨_, exec_str sr b off6 s, setCell_effect (baseOff6 s b off6) (s.reg sr) s⟩⟩

/-- Settles O37: away from 0xFE00 the two reads of LDI are plain, so the first leaves the data cell as it was; and of two
stores to different cells neither undoes the other. -/
theorem ldiRoundTrip : Obligations.LdiRoundTrip := by
  unfold Obligations.LdiRoundTrip
  refine ⟨fun s dr off9 p a v hp hpk hak hpa hav => ?roundTrip, fun s p a v hne => ?stores⟩
  case roundTrip =>
    obtain ⟨t, u, q, d, hx, ⟨hpointer, -⟩, ⟨hdata, -⟩, hval, hcond, -⟩ := ldiLoadsThroughThePointer.2 dr off9 s
    rw [← hp] at hpointer
    obtain ⟨hq, hsame, -⟩ := hpointer hpk
    obtain rfl : q = a := hq.trans hpa
    obtain ⟨hd, -⟩ := hdata hak
    obtain rfl : d = v := calc
      d = u.cell q := hd
      _ = s.cell q := hsame q
      _ = v := hav
    exact ⟨t, hx, hval, hcond⟩
  case stores =>
    simp [memWrite_cell, hne, hne.symm]

end Sys2Proof.Machine
end

section
/-! TRAP words and the encodings that fail fast (30_encoding.md R91; 43_trap_system.md R140 to R143, R148, R149, R151):
which instruction a word is, and the fault it raises. -/

namespace Sys2Proof.Machine

theorem decode_trapWord {w : Word} {v : BitVec 8} (hop : w.extractLsb 15 12 = 0xF#4) (hv : w.extractLsb 7 0 = v) :
    decode w = decodeTrap v :=
  hv ▸ decode_opF w hop

theorem trapVectorNamed_eq_false_of_outside {v : BitVec 8} (h : v.toNat < 0x20 ∨ 0x25 < v.toNat) :
    trapVectorNamed v = false := by
  simp only [trapVectorNamed, Bool.and_eq_false_iff, decide_eq_false_iff_not]
  omega

theorem decode_unknownTrapWord {w : Word} (hop : w.extractLsb 15 12 = 0xF#4)
    (hv : (w.extractLsb 7 0).toNat < 0x20 ∨ 0x25 < (w.extractLsb 7 0).toNat) :
    decode w = .trap (w.extractLsb 7 0) :=
  (decode_trapWord hop rfl).trans (decodeTrap_other (trapVectorNamed_eq_false_of_outside hv))

/-- A fail-fast instruction raises its fault, and that is all it does (R164). -/
theorem exec_of_failFastId {i : Instr} {why : FaultId} (hi : failFastId i = some why) (s : State) :
    exec i s = .next { s with status := .faulted why } := by
  cases i with
  | rti | sti | res | inChar | putsp | trap => cases hi; rfl
  | _ => cases hi

/-- Settles O48. -/
theorem rtiResAndStiFailFast : Obligations.RtiResAndStiFailFast := by
  unfold Obligations.RtiResAndStiFailFast
  exact ⟨decode_op8, decode_opD, fun w hop => ⟨_, _, decode_opB w hop⟩, exec_of_failFastId rfl,
    exec_of_failFastId rfl, fun _ _ => exec_of_failFastId rfl⟩

/-- Settles O49. -/
theorem inAndPutspFailFast : Obligations.InAndPutspFailFast := by
  unfold Obligations.InAndPutspFailFast
  exact ⟨fun _ => decode_trapWord, fun _ => decode_trapWord, exec_of_failFastId rfl, exec_of_failFastId rfl⟩

/-- Settles O50. -/
theorem unknownTrapVectorFaults : Obligations.UnknownTrapVectorFaults := by
  unfold Obligations.UnknownTrapVectorFaults
  exact ⟨fun _ => decode_unknownTrapWord, fun _ => exec_of_failFastId rfl⟩

end Sys2Proof.Machine
end

section
/-! What a trap routine leaves alone, in its first step and in those that go on with it (43_trap_system.md R141, R144). -/

namespace Sys2Proof.Machine

/-! ## The frame of a routine -/

/-- R141 for one step of a routine: R0 may change only if `takesKey`, the device registers only if `polls`, and no other
register, PC, COND, parameter or cell changes. -/
def TrapFrame (takesKey polls : Prop) (s t : State) : Prop :=
  SameRegsBut [0] s t ∧ (¬ takesKey → t.reg 0 = s.reg 0) ∧ t.pc = s.pc ∧ t.cond = s.cond ∧ t.cfg = s.cfg ∧
    (¬ polls → SameMemory s t) ∧ ∀ a, a ≠ kbsr → a ≠ kbdr → t.cell a = s.cell a

theorem TrapFrame.mono {k k' p p' : Prop} {s t : State} (h : TrapFrame k p s t) (hk : k → k') (hp : p → p') :
    TrapFrame k' p' s t := by
  obtain ⟨hregs, hreg0, hpc, hcond, hcfg, hmem, hcell⟩ := h
  exact ⟨hregs, fun hn => hreg0 (mt hk hn), hpc, hcond, hcfg, fun hn => hmem (mt hp hn), hcell⟩

theorem getcRoutine_trapFrame (s : State) : TrapFrame True False s (getcRoutine s) := by
  have hmem : SameMemory s (getcRoutine s) := cell_eq_of_mem_eq (getcRoutine_mem s)
  obtain ⟨hregs, hpc, hcond, -, -, -, hcfg⟩ := getcRoutine_frame s
  exact ⟨hregs, fun hn => absurd trivial hn, hpc, hcond, hcfg, fun _ => hmem, fun a _ _ => hmem a⟩

theorem putsPass_trapFrame (a : Word) (s : State) : TrapFrame False (a = kbsr) s (putsPass a s) := by
  have hcell := cell_eq_of_mem_eq (putsPass_mem a s)
  refine ⟨fun r _ => putsPass_reg a s r, fun _ => putsPass_reg a s 0, putsPass_pc a s, putsPass_cond a s,
    putsPass_cfg a s, fun ha b => ?_, fun b hs hd => (hcell b).trans (memRead_cell_of_not_device hs hd a s)⟩
  rw [hcell, memRead_plain ha]

/-- HALT, OUT and the faults write output, status and the mark of an unfinished routine at most. -/
theorem trapFrame_of_sameMachine {k p : Prop} {s t : State} (hregs : t.regs = s.regs) (hpc : t.pc = s.pc)
    (hcond : t.cond = s.cond) (hcfg : t.cfg = s.cfg) (hmem : t.mem = s.mem) : TrapFrame k p s t := by
  have hreg : ∀ r, t.reg r = s.reg r := fun r => congrArg (·[r.val]) hregs
  have hcell := cell_eq_of_mem_eq hmem
  exact ⟨fun r _ => hreg r, fun _ => hreg 0, hpc, hcond, hcfg, fun _ => hcell, fun a _ _ => hcell a⟩

theorem haltRoutine_trapFrame {k p : Prop} (cs : List Word) (s : State) : TrapFrame k p s (haltRoutine cs s) := by
  obtain ⟨hregs, hpc, hcond, hmem, -, hcfg⟩ := haltRoutine_frame cs s
  exact trapFrame_of_sameMachine hregs hpc hcond hcfg hmem

/-! ## The first step of a routine -/

/-- The rows of opcode 1111 (R91). -/
def IsTrap : Instr → Prop
  | .getc | .outChar | .puts | .inChar | .putsp | .halt | .trap _ => True
  | _ => False

theorem isTrap_decodeTrap (v : BitVec 8) : IsTrap (decodeTrap v) := by
  unfold decodeTrap
  split_ifs <;> trivial

theorem exec_trapFrame {i : Instr} {s t : State} (hi : IsTrap i) (hx : exec i s = .next t) :
    TrapFrame (i = .getc) (i = .puts) s t := by
  cases i with
  | getc => cases hx; exact (getcRoutine_trapFrame s).mono (fun _ => rfl) False.elim
  | puts => cases hx; exact (putsPass_trapFrame (s.reg 0) s).mono False.elim (fun _ => rfl)
  | halt => cases hx; exact haltRoutine_trapFrame s.cfg.haltNotice s
  | outChar | inChar | putsp | trap => cases hx; exact trapFrame_of_sameMachine rfl rfl rfl rfl rfl
  | _ => exact hi.elim

/-- Where the row examines the vector, a word of that row has the row's vector (R91). -/
theorem fieldVect8_of_decode {w : Word} {i : Instr} (h : decode w = i) (hmask : i.rowMask = 0xF0FF)
    (hmatch : i.rowMatch &&& 0xF0FF = i.rowMatch) : fieldVect8 w = fieldVect8 i.rowMatch := by
  have hrow : w &&& i.rowMask = i.rowMatch := h ▸ (selectsRow_decode w).1
  rw [hmask] at hrow
  exact ((and_opcode_vect8_eq_iff i.rowMatch hmatch).1 hrow).2

/-- Settles O39: the decoder's dispatch, and the frame of the instruction that the vector selects. -/
theorem trapWritesNoLinkage : Obligations.TrapWritesNoLinkage := by
  unfold Obligations.TrapWritesNoLinkage
  refine ⟨decode_opF, fun w s t hop hx => ?_⟩
  have htrap : IsTrap (decode w) := decode_opF w hop ▸ isTrap_decodeTrap (fieldVect8 w)
  have hgetc : decode w = .getc → w.extractLsb 7 0 = 0x20#8 := fun h => fieldVect8_of_decode h rfl rfl
  have hputs : decode w = .puts → w.extractLsb 7 0 = 0x22#8 := fun h => fieldVect8_of_decode h rfl rfl
  obtain ⟨hregs, hreg0, hpc, hcond, -, hmem, hcell⟩ := (exec_trapFrame htrap hx).mono hgetc hputs
  exact ⟨hregs, hreg0, hpc, hcond, hmem, hcell⟩

/-! ## The steps that go on with it -/

theorem resumeRoutine_trapFrame (r : Routine) (s : State) :
    TrapFrame (r = .getc) (r = .puts kbsr) s (resumeRoutine r s) := by
  cases r with
  | getc => exact (getcRoutine_trapFrame s).mono (fun _ => rfl) False.elim
  | puts a => exact (putsPass_trapFrame a s).mono False.elim (congrArg Routine.puts)
  | halt rest => exact haltRoutine_trapFrame rest s

/-- Only a HALT with no code left ends the run. -/
theorem resumeRoutine_status {r : Routine} (h : r ≠ .halt []) (s : State) :
    (resumeRoutine r s).status = s.status := by
  cases r with
  | getc => exact getcRoutine_status s
  | puts a => exact putsPass_status a s
  | halt rest =>
    cases rest with
    | nil => exact absurd rfl h
    | cons c rest => rfl

theorem eq_resumeRoutine_of_step {s t : State} {r : Routine} (hr : s.routine = some r) (hx : step s = .next t) :
    t = resumeRoutine r s :=
  Host.Outcome.next.inj (hx.symm.trans (step_unfinished (running_of_step hx) hr))

/-- Settles O60. -/
theorem unfinishedRoutinesChangeNothingElse : Obligations.UnfinishedRoutinesChangeNothingElse := by
  unfold Obligations.UnfinishedRoutinesChangeNothingElse
  intro s t r hr hx
  obtain rfl := eq_resumeRoutine_of_step hr hx
  obtain ⟨hregs, hreg0, hpc, hcond, hcfg, hmem, hcell⟩ := resumeRoutine_trapFrame r s
  exact ⟨hregs, hreg0, hpc, hcond, hcfg, fun hn => resumeRoutine_status hn s, hmem, hcell⟩

end Sys2Proof.Machine
end

section
/-! GETC, OUT and HALT (43_trap_system.md R145, R146, R150; 60_exceptions.md R165). -/

namespace Sys2Proof.Machine

/-! ## GETC -/

/-- With a key queued GETC takes the head into R0, and nothing else changes but the queue (R145). -/
theorem getcRoutine_takesHead {s : State} {k : Word} {ks : List Word} (hq : s.inq = k :: ks) :
    (getcRoutine s).reg 0 = k ∧ (getcRoutine s).inq = ks ∧ SameRegsBut [0] s (getcRoutine s) ∧
      (getcRoutine s).pc = s.pc ∧ (getcRoutine s).cond = s.cond ∧ SameMemory s (getcRoutine s) ∧
      (getcRoutine s).out = s.out ∧ (getcRoutine s).status = s.status ∧ (getcRoutine s).cfg = s.cfg ∧
      (getcRoutine s).routine = none := by
  obtain ⟨hregs, hpc, hcond, hmem, hstatus, hout, hcfg⟩ := getcRoutine_frame s
  refine ⟨?_, ?_, hregs, hpc, hcond, cell_eq_of_mem_eq hmem, hout, hstatus, hcfg, ?_⟩ <;> simp [getcRoutine_cons hq]

theorem exec_getc (s : State) : exec .getc s = .next (getcRoutine s) := rfl

/-- Settles O40. -/
theorem getcTakesTheHeadKey : Obligations.GetcTakesTheHeadKey := by
  unfold Obligations.GetcTakesTheHeadKey
  exact fun s _ _ hq => ⟨_, exec_getc s, getcRoutine_takesHead hq⟩

/-- A held GETC stays as it is: the mark it would set is set already. -/
theorem getcRoutine_held {s : State} (hr : s.routine = some .getc) (hq : s.inq = []) : getcRoutine s = s := by
  rw [getcRoutine_nil hq, ← hr]
  rfl

/-- Settles O41. -/
theorem getcIsHeldUntilAKeyArrives : Obligations.GetcIsHeldUntilAKeyArrives := by
  unfold Obligations.GetcIsHeldUntilAKeyArrives
  refine ⟨fun s hq => ?begins, fun s hs hr hq => ?held, fun s k hs hr hq => ?lifted⟩
  case begins => exact congrArg Host.Outcome.next (getcRoutine_nil hq)
  case held => exact (step_unfinished hs hr).trans (congrArg Host.Outcome.next (getcRoutine_held hr hq))
  case lifted =>
    have hq' : (hostKey k s).inq = [k] := congrArg (· ++ [k]) hq
    obtain ⟨hreg0, hinq, hregs, hpc, hcond, hmem, hout, hstatus, -, hroutine⟩ := getcRoutine_takesHead hq'
    exact ⟨_, step_unfinished (s := hostKey k s) hs hr, ⟨hstatus.trans hs, hroutine⟩, hreg0, hinq, hregs, hpc, hcond,
      hmem, hout⟩

/-! ## OUT -/

theorem exec_outChar (s : State) : exec .outChar s = .next (putChar (s.reg 0) s) := rfl

/-- Settles O42. -/
theorem outEmitsAllOfR0 : Obligations.OutEmitsAllOfR0 := by
  unfold Obligations.OutEmitsAllOfR0
  exact ⟨fun _ => decode_trapWord, exec_outChar⟩

/-! ## HALT -/

theorem step_haltRoutine_cons {s : State} (hs : s.status = .running) (c : Word) (rest : List Word) :
    step (haltRoutine (c :: rest) s) = .next (haltRoutine rest (haltRoutine (c :: rest) s)) :=
  step_unfinished (s := haltRoutine (c :: rest) s) hs rfl

/-- The state in which `j + 1` codes of `cs` are out, HALT having begun with `cs` in `s`. -/
theorem run_haltRoutine_of_lt {cs : List Word} {j : Nat} (hj : j < cs.length) {s : State} (hs : s.status = .running) :
    core.run j (haltRoutine cs s) =
      .next ((s.setOut (s.out ++ cs.take (j + 1))).setRoutine (some (.halt (cs.drop (j + 1))))) := by
  induction cs generalizing j s with
  | nil => cases hj
  | cons c rest ih =>
    cases j with
    | zero => rfl
    | succ j =>
      have hrest := ih (Nat.lt_of_succ_lt_succ hj) (s := haltRoutine (c :: rest) s) hs
      refine (run_succ (step_haltRoutine_cons hs c rest) j).trans (hrest.trans ?_)
      simp [haltRoutine_cons, State.setOut, State.setRoutine]

/-- The state in which the codes `cs` are all out and the run is over. -/
theorem run_haltRoutine_length (cs : List Word) {s : State} (hs : s.status = .running) :
    core.run cs.length (haltRoutine cs s) =
      .next (((s.setOut (s.out ++ cs)).setRoutine none).setStatus .halted) := by
  induction cs generalizing s with
  | nil => simp [run_zero, haltRoutine_nil, State.setOut, State.setRoutine, State.setStatus]
  | cons c rest ih =>
    have hrest := ih (s := haltRoutine (c :: rest) s) hs
    refine (run_succ (step_haltRoutine_cons hs c rest) rest.length).trans (hrest.trans ?_)
    simp [haltRoutine_cons, State.setOut, State.setRoutine, State.setStatus]

/-- Settles O46. -/
theorem haltEmitsTheNoticeAndEndsTheRun : Obligations.HaltEmitsTheNoticeAndEndsTheRun := by
  unfold Obligations.HaltEmitsTheNoticeAndEndsTheRun
  refine ⟨fun _ => decode_trapWord, fun s => ⟨_, exec_halt s, fun hn => ?empty, fun c rest hn => ?first⟩,
    fun s u hs hx => ?run, rfl⟩
  case empty => rw [hn]; rfl
  case first => rw [hn]; rfl
  case run =>
    obtain rfl := Host.Outcome.next.inj ((exec_halt s).symm.trans hx)
    refine ⟨fun j hj => run_haltRoutine_of_lt hj hs, _, run_haltRoutine_length _ hs, rfl, fun v hv => ?_⟩
    cases (step_halted rfl).symm.trans hv

end Sys2Proof.Machine
end

section
/-! PUTS (43_trap_system.md R147): a pass of the rule's loop a step, what a run of passes does, and why it ends. -/

namespace Sys2Proof.Machine

/-! ## One pass -/

theorem exec_puts (s : State) : exec .puts s = .next (putsPass (s.reg 0) s) := rfl

theorem putsPass_readEffect (a : Word) (s : State) : ReadEffect a s (putsPass a s) (memRead a s).1 := by
  obtain ⟨-, e⟩ | ⟨-, e⟩ := putsPass_cases a s <;> rw [e] <;> exact memRead_readEffect a s

theorem putsPass_effect (a : Word) (s : State) : PutsPass a s (putsPass a s) (memRead a s).1 := by
  refine ⟨putsPass_readEffect a s, fun r _ => putsPass_reg a s r, putsPass_pc a s, putsPass_cond a s,
    putsPass_status a s, putsPass_cfg a s, fun hc => ?stop, fun hc => ?emit⟩
  case stop => simp [putsPass_stop hc]
  case emit => simp [putsPass_emit hc]

/-- Settles O59. -/
theorem putsDoesOnePassAStep : Obligations.PutsDoesOnePassAStep := by
  unfold Obligations.PutsDoesOnePassAStep
  exact ⟨fun s => ⟨_, _, exec_puts s, putsPass_effect _ s⟩,
    fun s a hs hr => ⟨_, _, step_unfinished hs hr, putsPass_effect a s⟩⟩

/-! ## A pass after a pass -/

theorem memRead_setRoutine (a : Word) (s : State) (r : Option Routine) :
    memRead a (s.setRoutine r) = ((memRead a s).1, (memRead a s).2.setRoutine r) := by
  by_cases ha : a = kbsr
  · subst ha
    cases hq : s.inq with
    | nil => rw [memRead_kbsr_nil hq, memRead_kbsr_nil (s := s.setRoutine r) hq]; rfl
    | cons k ks => rw [memRead_kbsr_cons hq, memRead_kbsr_cons (s := s.setRoutine r) hq]; rfl
  · rw [memRead_plain ha, memRead_plain ha]; rfl

/-- A pass does not look at the mark that the routine is unfinished. -/
theorem putsPass_setRoutine (a : Word) (s : State) (r : Option Routine) :
    putsPass a (s.setRoutine r) = putsPass a s := by
  have hread := memRead_setRoutine a s r
  obtain ⟨hc, e⟩ | ⟨hc, e⟩ := putsPass_cases a s
  · rw [e, putsPass_stop (by rw [hread]; exact hc), hread]; rfl
  · rw [e, putsPass_emit (by rw [hread]; exact hc), hread]; rfl

/-- The step after a pass that put out a character is the pass at the next address. -/
theorem step_putsPass_emit {a : Word} {s : State} (hs : s.status = .running) (hc : (memRead a s).1 ≠ 0) :
    step (putsPass a s) = .next (putsPass (a + 1) (putChar (memRead a s).1 (memRead a s).2)) := by
  have hroutine : (putsPass a s).routine = some (.puts (a + 1)) := by rw [putsPass_emit hc]; rfl
  rw [step_unfinished ((putsPass_status a s).trans hs) hroutine, resumeRoutine, putsPass_emit hc,
    putsPass_setRoutine]

theorem putsPass_routine_eq_none_iff (a : Word) (s : State) :
    (putsPass a s).routine = none ↔ (memRead a s).1 = 0 := by
  obtain ⟨hc, e⟩ | ⟨hc, e⟩ := putsPass_cases a s
  · exact iff_of_true (by rw [e]; rfl) hc
  · exact iff_of_false (by rw [e]; nofun) hc

/-! ## The rule's loop -/

/-- A loop that ends is run to its end by its first pass and some more steps. -/
theorem PutsLoop.run_putsPass {a : Word} {s t : State} (h : PutsLoop a s t) (hs : s.status = .running) :
    ∃ k, core.run k (putsPass a s) = .next (t.setRoutine none) := by
  induction h with
  | stop hc => exact ⟨0, congrArg Host.Outcome.next (putsPass_stop hc)⟩
  | @emit a s t hc _ ih =>
    obtain ⟨k, hk⟩ := ih ((memRead_status a s).trans hs)
    exact ⟨k + 1, (run_succ (step_putsPass_emit hs hc) k).trans hk⟩

/-- A pass and `k` more steps, the last of which is the first to leave no routine unfinished, are the rule's loop. -/
theorem putsLoop_of_run_putsPass {k : Nat} {a : Word} {s v : State} (hs : s.status = .running)
    (hrun : core.run k (putsPass a s) = .next v)
    (hgoing : ∀ j < k, ∃ w, core.run j (putsPass a s) = .next w ∧ w.routine ≠ none) (hv : v.routine = none) :
    ∃ t, PutsLoop a s t ∧ v = t.setRoutine none := by
  induction k generalizing a s with
  | zero =>
    obtain rfl := Host.Outcome.next.inj hrun
    have hc : (memRead a s).1 = 0 := (putsPass_routine_eq_none_iff a s).1 hv
    exact ⟨_, .stop hc, putsPass_stop hc⟩
  | succ k ih =>
    have hc : (memRead a s).1 ≠ 0 := by
      obtain ⟨w, hw, hne⟩ := hgoing 0 k.succ_pos
      obtain rfl := Host.Outcome.next.inj hw
      exact mt (putsPass_routine_eq_none_iff a s).2 hne
    have hnext := run_succ (step_putsPass_emit hs hc)
    have hs' : (putChar (memRead a s).1 (memRead a s).2).status = .running := (memRead_status a s).trans hs
    obtain ⟨t, hloop, ht⟩ := ih hs' ((hnext k).symm.trans hrun)
      (fun j hj => hnext j ▸ hgoing (j + 1) (Nat.succ_lt_succ hj))
    exact ⟨t, .emit hc hloop, ht⟩

/-- Settles O44. -/
theorem putsRunsTheRulesLoop : Obligations.PutsRunsTheRulesLoop := by
  unfold Obligations.PutsRunsTheRulesLoop
  refine ⟨fun s t hs hloop => ?_, fun s u v k hs hx hrun hgoing hv => ?_⟩
  · obtain ⟨k, hk⟩ := hloop.run_putsPass hs
    exact ⟨_, k, exec_puts s, hk⟩
  · obtain rfl := Host.Outcome.next.inj ((exec_puts s).symm.trans hx)
    exact putsLoop_of_run_putsPass hs hrun hgoing hv

/-! ## A string that does not reach 0xFE00 -/

/-- `StringAt` at any address: `n` words that are not zero, then a zero word, none of them the cell 0xFE00. -/
def StringFrom (a : Word) (s : State) (n : Nat) : Prop :=
  (∀ k ≤ n, a + BitVec.ofNat 16 k ≠ kbsr) ∧ (∀ k < n, s.cell (a + BitVec.ofNat 16 k) ≠ 0) ∧
    s.cell (a + BitVec.ofNat 16 n) = 0

/-- The `n` words from address `a` on. -/
def wordsFrom (a : Word) (s : State) (n : Nat) : List Word :=
  (List.range n).map (fun k => s.cell (a + BitVec.ofNat 16 k))

theorem add_one_add_ofNat (a : Word) (k : Nat) : a + 1 + BitVec.ofNat 16 k = a + BitVec.ofNat 16 (k + 1) := by
  rw [BitVec.add_assoc, BitVec.add_comm 1, BitVec.ofNat_add]
  rfl

theorem StringFrom.memRead_eq {a : Word} {s : State} {n : Nat} (h : StringFrom a s n) :
    memRead a s = (s.cell a, s) :=
  memRead_plain (by simpa using h.1 0 n.zero_le)

theorem StringFrom.cell_eq_zero {a : Word} {s : State} (h : StringFrom a s 0) : s.cell a = 0 := by
  simpa using h.2.2

theorem StringFrom.cell_ne_zero {a : Word} {s : State} {n : Nat} (h : StringFrom a s (n + 1)) : s.cell a ≠ 0 := by
  simpa using h.2.1 0 n.succ_pos

theorem StringFrom.tail {a : Word} {s : State} {n : Nat} (h : StringFrom a s (n + 1)) : StringFrom (a + 1) s n := by
  obtain ⟨hplain, hne, hzero⟩ := h
  simp only [StringFrom, add_one_add_ofNat]
  exact ⟨fun k hk => hplain (k + 1) (by omega), fun k hk => hne (k + 1) (by omega), hzero⟩

theorem wordsFrom_succ (a : Word) (s : State) (n : Nat) :
    wordsFrom a s (n + 1) = s.cell a :: wordsFrom (a + 1) s n := by
  simp only [wordsFrom, add_one_add_ofNat]
  simp [List.range_succ_eq_map]

/-- A string of `n` words is put out by a pass and `n` more steps. -/
theorem StringFrom.run_putsPass {n : Nat} {a : Word} {s : State} (h : StringFrom a s n) (hs : s.status = .running) :
    core.run n (putsPass a s) = .next ((s.setOut (s.out ++ wordsFrom a s n)).setRoutine none) := by
  induction n generalizing a s with
  | zero =>
    have hc : (memRead a s).1 = 0 := by rw [h.memRead_eq]; exact h.cell_eq_zero
    rw [run_zero, putsPass_stop hc, h.memRead_eq]
    simp [wordsFrom, State.setOut]
  | succ n ih =>
    have hc : (memRead a s).1 ≠ 0 := by rw [h.memRead_eq]; exact h.cell_ne_zero
    have htail : StringFrom (a + 1) (putChar (s.cell a) s) n := h.tail
    rw [run_succ (step_putsPass_emit hs hc), h.memRead_eq, ih htail hs, wordsFrom_succ, List.append_cons]
    rfl

/-- Settles O43. -/
theorem putsEmitsTheString : Obligations.PutsEmitsTheString := by
  unfold Obligations.PutsEmitsTheString
  intro s n hs hstring
  have hfrom : StringFrom (s.reg 0) s n := hstring.2
  exact ⟨_, exec_puts s, hfrom.run_putsPass hs⟩

/-! ## A scan to which no key arrives -/

/-- The passes a scan at `a` has left at most: those up to 0xFE00, and one round of the memory for each key queued. -/
def passesLeft (a : Word) (s : State) : Nat := (kbsr - a).toNat + 1 + 65536 * s.inq.length

theorem passesLeft_le (a : Word) (s : State) : passesLeft a s ≤ 65536 * (s.inq.length + 1) := by
  have hdist : (kbsr - a).toNat < 65536 := (kbsr - a).isLt
  unfold passesLeft
  omega

theorem passesLeft_pos (a : Word) (s : State) : 0 < passesLeft a s := by
  unfold passesLeft
  omega

/-- A pass that puts out a character leaves fewer: it comes nearer to 0xFE00, or it is there and takes a key. -/
theorem passesLeft_putsPass_lt {a : Word} {s : State} (hc : (memRead a s).1 ≠ 0) :
    passesLeft (a + 1) (putsPass a s) < passesLeft a s := by
  unfold passesLeft
  rw [putsPass_inq]
  by_cases ha : a = kbsr
  · subst ha
    cases hq : s.inq with
    | nil => rw [memRead_kbsr_nil hq] at hc; exact absurd rfl hc
    | cons k ks =>
      have hround : (kbsr - (kbsr + 1)).toNat = 65535 := by decide
      rw [(memRead_kbsr_latches hq).1, List.length_cons, hround]
      omega
  · have hnearer : (kbsr - (a + 1)).toNat < (kbsr - a).toNat := by
      unfold kbsr at ha ⊢
      bv_omega
    rw [memRead_plain ha]
    dsimp only
    omega

theorem run_puts_ends {n : Nat} {a : Word} {s : State} (hs : s.status = .running) (hr : s.routine = some (.puts a))
    (hn : passesLeft a s ≤ n) : ∃ k t, k ≤ n ∧ core.run k s = .next t ∧ Ready t := by
  induction n generalizing a s with
  | zero => exact absurd hn (passesLeft_pos a s).not_ge
  | succ n ih =>
    have hstep : step s = .next (putsPass a s) := step_unfinished hs hr
    have hs' : (putsPass a s).status = .running := (putsPass_status a s).trans hs
    by_cases hc : (memRead a s).1 = 0
    · exact ⟨1, _, by omega, run_succ hstep 0, hs', (putsPass_routine_eq_none_iff a s).2 hc⟩
    · have hr' : (putsPass a s).routine = some (.puts (a + 1)) := by rw [putsPass_emit hc]; rfl
      have hless := passesLeft_putsPass_lt hc
      obtain ⟨k, t, hk, hrun, hready⟩ := ih hs' hr' (by omega)
      exact ⟨k + 1, t, by omega, (run_succ hstep k).trans hrun, hready⟩

/-- Settles O45: each pass but the last lowers `passesLeft`. -/
theorem putsEndsWhenKeysRunOut : Obligations.PutsEndsWhenKeysRunOut := by
  unfold Obligations.PutsEndsWhenKeysRunOut
  exact fun s a hs hr => run_puts_ends hs hr (passesLeft_le a s)

end Sys2Proof.Machine
end

section
/-! Faults (60_exceptions.md R161, R163, R164): the words that raise each, and the state a fault leaves. -/

namespace Sys2Proof.Machine

/-! ## Which words raise a fault -/

/-- The table of R161 and the rule R163: the words that raise the fault `why`. -/
def RaisesFault (w : Word) : FaultId → Prop
  | .unimplementedOperation .opcodeRTI => opcodeOf w = 0x8
  | .unimplementedOperation .opcodeSTI => opcodeOf w = 0xB
  | .unimplementedOperation .opcodeRES => opcodeOf w = 0xD
  | .unimplementedOperation .trapIN => opcodeOf w = 0xF ∧ fieldVect8 w = 0x23
  | .unimplementedOperation .trapPUTSP => opcodeOf w = 0xF ∧ fieldVect8 w = 0x24
  | .unknownTrapVector v => opcodeOf w = 0xF ∧ fieldVect8 w = v ∧ (v.toNat < 0x20 ∨ 0x25 < v.toNat)

theorem outside_of_trapVectorNamed_eq_false {v : BitVec 8} (h : trapVectorNamed v = false) :
    v.toNat < 0x20 ∨ 0x25 < v.toNat := by
  simp only [trapVectorNamed, Bool.and_eq_false_iff, decide_eq_false_iff_not] at h
  omega

/-- A word that decodes to a fail-fast instruction selects that instruction's row, which fixes its opcode and vector. -/
theorem raisesFault_of_failFastId_decode {w : Word} {why : FaultId} (h : failFastId (decode w) = some why) :
    RaisesFault w why := by
  have hsel : SelectsRow w (decode w) := selectsRow_decode w
  have hread : decode w = rowOperands w (decode w) := decode_eq_rowOperands hsel
  obtain ⟨hrow, hvect⟩ := hsel
  generalize decode w = i at h hrow hvect hread
  cases i with
  | rti => cases h; exact (and_opcode_eq_iff 0x8000).1 hrow
  | sti => cases h; exact (and_opcode_eq_iff 0xB000).1 hrow
  | res => cases h; exact (and_opcode_eq_iff 0xD000).1 hrow
  | inChar => cases h; exact (and_opcode_vect8_eq_iff 0xF023).1 hrow
  | putsp => cases h; exact (and_opcode_vect8_eq_iff 0xF024).1 hrow
  | trap v =>
    cases h
    obtain rfl : v = fieldVect8 w := Instr.trap.inj hread
    exact ⟨(and_opcode_eq_iff 0xF000).1 hrow, rfl, outside_of_trapVectorNamed_eq_false (hvect _ rfl)⟩
  | _ => cases h

theorem failFastId_decode_of_raisesFault {w : Word} {why : FaultId} (h : RaisesFault w why) :
    failFastId (decode w) = some why := by
  cases why with
  | unimplementedOperation what =>
    cases what with
    | opcodeRTI => rw [decode_op8 w h]; rfl
    | opcodeSTI => rw [decode_opB w h]; rfl
    | opcodeRES => rw [decode_opD w h]; rfl
    | trapIN => rw [decode_trapWord h.1 h.2]; rfl
    | trapPUTSP => rw [decode_trapWord h.1 h.2]; rfl
  | unknownTrapVector v =>
    obtain ⟨hop, rfl, hout⟩ := h
    rw [decode_unknownTrapWord hop hout]
    rfl

/-! ## Which steps end in a fault -/

theorem haltRoutine_not_faulted {s : State} (hs : s.status = .running) (cs : List Word) (why : FaultId) :
    (haltRoutine cs s).status ≠ .faulted why := by
  cases cs with
  | nil => nofun
  | cons c rest => exact fun h => nomatch hs.symm.trans h

/-- From a running machine only the fail-fast instructions lead to FAULTED, each with its own identifier. -/
theorem failFastId_of_exec_faulted {i : Instr} {s t : State} {why : FaultId} (hs : s.status = .running)
    (hx : exec i s = .next t) (ht : t.status = .faulted why) : failFastId i = some why := by
  cases exec_effect hx with
  | fault hi => cases ht; exact hi
  | alu | store | br | jmp | jsr | jsrr | outChar => exact nomatch hs.symm.trans ht
  | load => exact nomatch (((memRead_status _ s).trans hs).symm.trans ht)
  | getc => exact nomatch (((getcRoutine_status s).trans hs).symm.trans ht)
  | puts => exact nomatch (((putsPass_status _ s).trans hs).symm.trans ht)
  | halt => exact absurd ht (haltRoutine_not_faulted hs _ why)

theorem step_faulted_iff {s t : State} {why : FaultId} (h : Ready s) (hx : step s = .next t) :
    t.status = .faulted why ↔ failFastId (decode (fetch s).1) = some why := by
  have hexec := (step_ready h).symm.trans hx
  refine ⟨failFastId_of_exec_faulted (fetch_ready h).1 hexec, fun hi => ?_⟩
  cases (exec_of_failFastId hi _).symm.trans hexec
  rfl

theorem step_faulted_iff_raisesFault {s t : State} (why : FaultId) (h : Ready s) (hx : step s = .next t) :
    t.status = .faulted why ↔ RaisesFault (fetch s).1 why :=
  (step_faulted_iff h hx).trans ⟨raisesFault_of_failFastId_decode, failFastId_decode_of_raisesFault⟩

/-- Settles O51: a step ends in FAULTED when the word fetched decodes to a fail-fast instruction, which are the words of
the rule's table. -/
theorem faultsHaveExactlyTheListedCauses : Obligations.FaultsHaveExactlyTheListedCauses := by
  unfold Obligations.FaultsHaveExactlyTheListedCauses
  intro s t h hx
  have hcause (why : FaultId) := step_faulted_iff_raisesFault why h hx
  exact ⟨hcause _, hcause _, hcause _, hcause _, hcause _, fun x => hcause (.unknownTrapVector x)⟩

/-! ## The state a fault leaves -/

/-- A step that ends in FAULTED is its fetch and the identifier (R164). -/
theorem eq_fetch_of_step_faulted {s t : State} {why : FaultId} (h : Ready s) (hx : step s = .next t)
    (ht : t.status = .faulted why) : t = { (fetch s).2 with status := .faulted why } := by
  have hfault := exec_of_failFastId ((step_faulted_iff h hx).1 ht) (fetch s).2
  exact Host.Outcome.next.inj (hx.symm.trans ((step_ready h).trans hfault))

theorem fetch_readEffect (s : State) : ReadEffect s.pc s (fetch s).2 (fetch s).1 := by
  rw [fetch_eq]
  exact memRead_readEffect s.pc s

theorem fetch_sameRegs (s : State) : SameRegsBut [] s (fetch s).2 := by
  intro r _
  simp [fetch_eq]

/-- Settles O52. -/
theorem faultLeavesThePreciseState : Obligations.FaultLeavesThePreciseState := by
  unfold Obligations.FaultLeavesThePreciseState
  intro s t why h hx ht
  have hstops : ∀ u, step t ≠ .next u := fun u hu => nomatch (step_faulted ht).symm.trans hu
  obtain rfl := eq_fetch_of_step_faulted h hx ht
  refine ⟨fetch_pc s, fetch_readEffect s, fetch_sameRegs s, fetch_cond s, fetch_out s, (fetch_ready h).2, fetch_cfg s,
    fun hpc => ?_, hstops⟩
  rw [fetch_plain hpc]
  rfl

end Sys2Proof.Machine
end

section
/-! A key that no read polls (10_state.md R36; 60_exceptions.md R170). -/

namespace Sys2Proof.Machine

/-- Settles O53: a ready step by its fetch and its instruction, a step that goes on with a routine by the routine. -/
theorem keyArrivalIsInvisibleUntilPolled : Obligations.KeyArrivalIsInvisibleUntilPolled := by
  unfold Obligations.KeyArrivalIsInvisibleUntilPolled
  refine ⟨fun s t k h hpc hkey hx => ?ready, fun s t k r hr hgetc hputs hx => ?unfinished⟩
  case ready =>
    have hread : NoKeyboard (decode (fetch s).1) (fetch s).2 := by rw [fetch_plain hpc]; exact hkey
    exact step_ready_hostKey h (.inl hpc) (.inl hread) ((step_ready h).symm.trans hx)
  case unfinished =>
    have hs : s.status = .running := running_of_step hx
    rw [eq_resumeRoutine_of_step hr hx, step_unfinished (s := hostKey k s) hs hr,
      resumeRoutine_hostKey (.inl ⟨hgetc, hputs⟩)]

end Sys2Proof.Machine
end

section
/-! The memory of a ROM image (70_reset_and_hazards.md R193, R194). -/

namespace Sys2Proof.Machine

/-- Word `i` of an image, its bytes in big-endian order; past the image's end it is zero. -/
def imageWord (image : List Byte) (i : Nat) : Word := image.getD (2 * i) 0 ++ image.getD (2 * i + 1) 0

theorem imageWord_nil (i : Nat) : imageWord [] i = 0 := by
  simp [imageWord]

theorem imageWord_cons_zero (hi lo : Byte) (rest : List Byte) : imageWord (hi :: lo :: rest) 0 = hi ++ lo := rfl

theorem imageWord_cons_succ (hi lo : Byte) (rest : List Byte) (i : Nat) :
    imageWord (hi :: lo :: rest) (i + 1) = imageWord rest i := rfl

theorem imageWords_eq_none_iff (image : List Byte) : imageWords image = none ↔ image.length % 2 = 1 := by
  induction image using imageWords.induct with
  | case1 => simp [imageWords]
  | case2 => simp [imageWords]
  | case3 hi lo rest ih =>
    simp only [imageWords, Option.map_eq_none_iff, ih, List.length_cons]
    omega

theorem imageWords_eq_some {image : List Byte} {ws : List Word} (h : imageWords image = some ws) :
    image.length = 2 * ws.length ∧ ∀ i, ws.getD i 0 = imageWord image i := by
  induction image using imageWords.induct generalizing ws with
  | case1 =>
    obtain rfl : [] = ws := Option.some.inj h
    exact ⟨rfl, fun i => (imageWord_nil i).symm⟩
  | case2 b => exact nomatch h
  | case3 hi lo rest ih =>
    obtain ⟨tail, htail, rfl⟩ := Option.map_eq_some_iff.1 h
    obtain ⟨hlen, hget⟩ := ih htail
    refine ⟨by simp only [List.length_cons, hlen]; omega, fun i => ?_⟩
    cases i with
    | zero => exact (imageWord_cons_zero hi lo rest).symm
    | succ i => exact (hget i).trans (imageWord_cons_succ hi lo rest i).symm

theorem placeWords_wf {m : Memory} (h : Memory.wf m) (a : Word) (ws : List Word) : Memory.wf (placeWords a ws m) := by
  induction ws generalizing a m with
  | nil => exact h
  | cons w ws ih => exact ih (Memory.wf_write h a w) (a + 1)

/-- The distance `b - a` wraps, so the lemma also covers words that run past 0xFFFF and on from 0. -/
theorem read_placeWords {ws : List Word} (hlen : ws.length ≤ 65536) (a b : Word) (m : Memory) :
    Memory.read (placeWords a ws m) b =
      if (b - a).toNat < ws.length then ws.getD (b - a).toNat 0 else Memory.read m b := by
  induction ws generalizing a m with
  | nil => rfl
  | cons w ws ih =>
    rw [List.length_cons] at hlen ⊢
    rw [placeWords, ih (by omega), Memory.read_write_eq_ite]
    by_cases hb : b = a
    · subst hb
      have hlast : ¬ (b - (b + 1)).toNat < ws.length := by bv_omega
      rw [if_neg hlast]
      simp
    · have hnext : (b - a).toNat = (b - (a + 1)).toNat + 1 := by bv_omega
      simp [hnext, hb]

theorem imageMemory_of_imageWords {image : List Byte} {origin : Word} {ws : List Word}
    (h : imageWords image = some (origin :: ws)) :
    imageMemory image = if origin.toNat + ws.length ≤ 65536 then some (placeWords origin ws []) else none := by
  simp [imageMemory, h]

theorem imageMemory_eq_some {image : List Byte} {mem : Memory} (h : imageMemory image = some mem) :
    ∃ origin ws, imageWords image = some (origin :: ws) ∧ origin.toNat + ws.length ≤ 65536 ∧
      mem = placeWords origin ws [] := by
  unfold imageMemory at h
  split at h
  case h_1 origin ws hws =>
    obtain ⟨hfits, hmem⟩ := Option.ite_none_right_eq_some.1 h
    exact ⟨origin, ws, hws, hfits, (Option.some.inj hmem).symm⟩
  case h_2 => exact nomatch h

/-- An image is refused for having no whole words or no origin among them, or for where its words would end (D14). -/
theorem imageMemory_eq_none_iff (image : List Byte) :
    imageMemory image = none ↔ image.length < 2 ∨ image.length % 2 = 1 ∨
      65536 < (imageWord image 0).toNat + (image.length / 2 - 1) := by
  cases hws : imageWords image with
  | none =>
    have hodd := (imageWords_eq_none_iff image).1 hws
    simp [imageMemory, hws, hodd]
  | some ws =>
    obtain ⟨hlen, hget⟩ := imageWords_eq_some hws
    cases ws with
    | nil => simp [imageMemory, hws, hlen]
    | cons origin ws =>
      have horigin : origin = imageWord image 0 := hget 0
      rw [imageMemory_of_imageWords hws, ← horigin, ite_eq_right_iff]
      rw [List.length_cons] at hlen
      simp only [reduceCtorEq, imp_false]
      omega

/-- The words after the origin stand from the origin on, and every other cell is zero (R193). -/
theorem read_imageMemory {image : List Byte} {mem : Memory} (h : imageMemory image = some mem) (a : Word) :
    Memory.read mem a =
      if (imageWord image 0).toNat ≤ a.toNat ∧ a.toNat < (imageWord image 0).toNat + (image.length / 2 - 1)
      then imageWord image (a.toNat - (imageWord image 0).toNat + 1) else 0 := by
  obtain ⟨origin, ws, hws, hfits, rfl⟩ := imageMemory_eq_some h
  obtain ⟨hlen, hget⟩ := imageWords_eq_some hws
  have horigin : origin = imageWord image 0 := hget 0
  have hcount : image.length / 2 - 1 = ws.length := by simp [hlen]
  rw [read_placeWords (by omega), ← horigin, hcount]
  have hrange : (a - origin).toNat < ws.length ↔ origin.toNat ≤ a.toNat ∧ a.toNat < origin.toNat + ws.length := by
    bv_omega
  refine ite_congr (propext hrange) (fun hin => ?_) (fun _ => Memory.read_nil a)
  have hindex : (a - origin).toNat = a.toNat - origin.toNat := by bv_omega
  rw [hindex]
  exact hget (a.toNat - origin.toNat + 1)

theorem imageMemory_wf {image : List Byte} {mem : Memory} (h : imageMemory image = some mem) : Memory.wf mem := by
  obtain ⟨origin, ws, _, _, rfl⟩ := imageMemory_eq_some h
  exact placeWords_wf Memory.wf_nil origin ws

/-- Settles O56: the refusals by the image's words, the cells by where `placeWords` writes, the boot by reset. -/
theorem imageIsPlacedFromItsOrigin : Obligations.ImageIsPlacedFromItsOrigin := by
  unfold Obligations.ImageIsPlacedFromItsOrigin
  refine fun image => ⟨imageMemory_eq_none_iff image, fun mem h => ⟨imageMemory_wf h, read_imageMemory h⟩,
    fun c q s hboot => ?_⟩
  obtain ⟨mem, hmem, rfl⟩ := Option.map_eq_some_iff.1 hboot
  exact ⟨rfl, mem, hmem, rfl⟩

end Sys2Proof.Machine
end
